-- ==== Sys2Proof/Word.lean ====
section
/-! DEFINITION. The bit-vector widths of the ANC memory core (30_encoding.md R81, R84; 00_scope.md R7). Every value is
unsigned (R10). -/

namespace Sys2Proof

/-- One byte: `UNIT` of R7. -/
abbrev Byte := BitVec 8

/-- A 16-bit address: `ADDR_WIDTH` of R7. -/
abbrev Addr := BitVec 16

/-- A 16-bit DMA byte count: `DMA_LEN_WIDTH` of R7. -/
abbrev DmaLength := BitVec 16

/-- A 32-bit image length in characters: `IMAGE_LEN_WIDTH` of R7. -/
abbrev ImageLength := BitVec 32

/-- A 48-bit request word, format REQ48 (R81). -/
abbrev RequestWord := BitVec 48

/-- The 3-bit region field of a response (R84, R85). -/
abbrev RegionId := BitVec 3

end Sys2Proof
end

