-- ==== Sys2Proof/Config.lean ====
section
/-! DEFINITION. What an implementation of the block fixes: the parameters of 00_scope.md R7, the region table of
10_state.md R22 and the firmware image of 43_firmware.md R160. The block leaves no value open (93_implementation_defined.md),
so there is no free value here. `CPU_RESET_VECTOR` is the one OPEN parameter; it belongs to the CPU, outside the block, and
stands as an argument where a claim needs it (log 16). -/

namespace Sys2Proof

/-- The names of region-table entries: the four of R22, and further ones for an alternate table (log 8). -/
inductive RegionName where
  | firmware
  | ram
  | io
  | programRom
  | other (k : Nat)
deriving DecidableEq, Repr

/-- The write policy of an entry (R22): the register `fw_writable`, or a constant. -/
inductive WritePolicy where
  | fwRegister
  | constant (writable : Bool)
deriving DecidableEq, Repr

/-- One entry of the region table (R22). `base` and `limit` are inclusive. -/
structure Region where
  name   : RegionName
  base   : Addr
  limit  : Addr
  policy : WritePolicy
deriving DecidableEq, Repr

/-- A region table: its entries in index order (R22). `N_REGIONS` is its length. -/
abbrev RegionTable := List Region

/-- The default table, which is this hardware's table (R22). -/
def Config.defaultTable : RegionTable :=
  [ { name := .firmware,   base := 0x0000#16, limit := 0x00FF#16, policy := .fwRegister },
    { name := .ram,        base := 0x0100#16, limit := 0x6FFF#16, policy := .constant true },
    { name := .io,         base := 0x7000#16, limit := 0x7FFF#16, policy := .constant true },
    { name := .programRom, base := 0x8000#16, limit := 0xFFFF#16, policy := .constant false } ]

/-- `MEM_SIZE` (R7): the number of bytes of the backing store. -/
def Config.memSize : Nat := 65536

/-- `FW_REGION` (R7): the index of the only region whose policy is a register. -/
def Config.fwRegion : Nat := 0

/-- `ROM_REGION_DEFAULT` (R7): the destination of a ROM_LOAD written without an operand (R91). -/
def Config.romRegionDefault : Byte := 0x03#8

/-- `FW_IMAGE` (R7, R160): the bytes FW_INSTALL writes at 0x0000 to 0x0005. -/
def Config.fwImage : List Byte := [0x04#8, 0x04#8, 0xFF#8, 0x01#8, 0x80#8, 0x00#8]

end Sys2Proof
end

