-- ==== Sys2Proof/Syntax.lean ====
section
/-! DEFINITION. The requests of the block, one constructor for each row of spec/opcode_table.json (30_encoding.md R82), and
the agents that issue them (00_scope.md R9). -/

namespace Sys2Proof

/-- The bit `d` of a request word (R81, R87): the access kind of RESOLVE and the direction of DMA_CONFIG. 0 is Read and
1 is Write in both uses, and `dma_dir` holds it as given (R31). -/
inductive AccessKind where
  | read
  | write
deriving DecidableEq, Repr

/-- The fourteen requests (R82), with the operand fields each one uses, at their full widths (R87). -/
inductive Instr where
  /-- RESOLVE, op 0x0 (R111). -/
  | resolve (kind : AccessKind) (addr : Addr)
  /-- READ, op 0x1 (R130). -/
  | read (addr : Addr)
  /-- WRITE, op 0x2 (R131). -/
  | write (data : Byte) (addr : Addr)
  /-- DMA_CONFIG, op 0x3 (R171). -/
  | dmaConfig (dir : AccessKind) (pending : Byte) (len : DmaLength) (start : Addr)
  /-- DMA_LOAD_PENDING, op 0x4 (R172). -/
  | dmaLoadPending (data : Byte)
  /-- DMA_READ_PENDING, op 0x5 (R173). -/
  | dmaReadPending
  /-- DMA_GRANT, op 0x6 (R174). -/
  | dmaGrant
  /-- DMA_STEP, op 0x7 (R175). -/
  | dmaStep
  /-- DMA_ACK, op 0x8 (R178). -/
  | dmaAck
  /-- DMA_STATUS, op 0x9 (R179). -/
  | dmaStatus
  /-- ROM_LOAD, op 0xA (R141). The operand is the whole 8-bit region index (R87). -/
  | romLoad (region : Byte)
  /-- FW_INSTALL, op 0xB (R161). -/
  | fwInstall
  /-- START, op 0xC (R163). -/
  | start
  /-- REGION_QUERY, op 0xD (R112). The operand is the whole 8-bit region index (R87). -/
  | regionQuery (region : Byte)
deriving DecidableEq, Repr

/-- The agents that issue requests (R9). -/
inductive Agent where
  | cpu
  | busArbiter
  | dmaEngine
  | bootHost
deriving DecidableEq, Repr

/-- The agent that issues each request (the table of R9). The block itself does not check it (R9, R220; log 15). -/
def Instr.issuer : Instr → Agent
  | .resolve _ _ => .cpu
  | .read _ => .cpu
  | .write _ _ => .cpu
  | .dmaConfig _ _ _ _ => .cpu
  | .dmaLoadPending _ => .cpu
  | .dmaReadPending => .cpu
  | .dmaGrant => .busArbiter
  | .dmaStep => .dmaEngine
  | .dmaAck => .cpu
  | .dmaStatus => .cpu
  | .romLoad _ => .bootHost
  | .fwInstall => .bootHost
  | .start => .bootHost
  | .regionQuery _ => .cpu

end Sys2Proof
end

