-- ==== Sys2Proof/WellFormed.lean ====
section
/-! DEFINITION. Well-formedness of a configuration: the checks WF1 to WF4 of an alternate region table (10_state.md R23).
A request needs no check of its own: R81 and R87 give every operand a plain field, whose width is in the type of Instr. -/

namespace Sys2Proof

/-- WF1 (R23): `1 <= N_REGIONS <= 7`. -/
abbrev RegionTable.WF1 (t : RegionTable) : Prop := 1 ≤ t.length ∧ t.length ≤ 7

/-- WF2 (R23): `base <= limit` for every entry. -/
abbrev RegionTable.WF2 (t : RegionTable) : Prop := ∀ r ∈ t, r.base ≤ r.limit

/-- WF3 (R23): the regions are pairwise disjoint. -/
abbrev RegionTable.WF3 (t : RegionTable) : Prop :=
  t.Pairwise (fun r q => r.limit < q.base ∨ q.limit < r.base)

/-- The first half of WF4 (R23): the entry `FW_REGION` exists, starts at 0x0000 and holds the firmware image, and its
policy is the register. -/
abbrev RegionTable.FirmwareEntry (r : Region) : Prop :=
  r.base = 0x0000#16 ∧ 0x0005#16 ≤ r.limit ∧ r.policy = .fwRegister

/-- WF4 (R23): entry 0 is a firmware entry, and every other entry has a constant policy. -/
abbrev RegionTable.WF4 (t : RegionTable) : Prop :=
  (∃ r ∈ t.head?, RegionTable.FirmwareEntry r) ∧ ∀ r ∈ t.tail, r.policy ≠ .fwRegister

/-- A region table is well formed only if it passes every check (R23). -/
abbrev RegionTable.WF (t : RegionTable) : Prop :=
  RegionTable.WF1 t ∧ RegionTable.WF2 t ∧ RegionTable.WF3 t ∧ RegionTable.WF4 t

end Sys2Proof
end

