-- ==== Sys2Proof/Decode.lean ====
section
/-! DEFINITION. The encoding of requests: the fields of a REQ48 word (30_encoding.md R81), the decoder, total on every
48-bit word and rejecting by name (R83), and the encoder. The address decoder of 40_decoder.md is another thing: it is
`Machine.decodeAddr`. -/

namespace Sys2Proof

/-- The fields of REQ48 (R81). -/
structure Req48 where
  op   : BitVec 4
  d    : BitVec 1
  rsv  : BitVec 3
  data : BitVec 8
  len  : BitVec 16
  addr : BitVec 16
deriving DecidableEq, Repr

/-- Why a word is no request (R83). The block reports every one of them as ILLEGAL_REQUEST (log 14). -/
inductive DecodeReject where
  /-- `op` is 0xE or 0xF. -/
  | reservedOpcode
  /-- `rsv` is not 0. -/
  | reservedBits
  /-- A field that the operation does not use (R82) is not 0. -/
  | unusedField
deriving DecidableEq, Repr

/-- The fields of a word, at the bit positions of R81. -/
def splitWord (w : RequestWord) : Req48 :=
  { op   := w.extractLsb' 44 4,
    d    := w.extractLsb' 43 1,
    rsv  := w.extractLsb' 40 3,
    data := w.extractLsb' 32 8,
    len  := w.extractLsb' 16 16,
    addr := w.extractLsb' 0 16 }

/-- The word that has the given fields (R81). -/
def joinWord (f : Req48) : RequestWord := f.op ++ f.d ++ f.rsv ++ f.data ++ f.len ++ f.addr

/-- The meaning of the bit `d` (R87): 0 Read, 1 Write. -/
def kindOfBit (d : BitVec 1) : AccessKind := if d = 1#1 then .write else .read

/-- The bit `d` of a kind or a direction (R87). -/
def bitOfKind : AccessKind → BitVec 1
  | .read => 0#1
  | .write => 1#1

/-- The request `i`, if the fields it does not use are all 0 (R83). -/
def ifUnusedZero (allZero : Bool) (i : Instr) : Except DecodeReject Instr :=
  if allZero then .ok i else .error .unusedField

/-- The request that a word's operation code selects, with the must-be-zero check of the fields that the operation does
not use (R82, R83). -/
def decodeOp (f : Req48) : Except DecodeReject Instr :=
  match f.op.toNat with
  | 0x0 => ifUnusedZero (f.data == 0 && f.len == 0) (.resolve (kindOfBit f.d) f.addr)
  | 0x1 => ifUnusedZero (f.d == 0 && f.data == 0 && f.len == 0) (.read f.addr)
  | 0x2 => ifUnusedZero (f.d == 0 && f.len == 0) (.write f.data f.addr)
  | 0x3 => .ok (.dmaConfig (kindOfBit f.d) f.data f.len f.addr)
  | 0x4 => ifUnusedZero (f.d == 0 && f.len == 0 && f.addr == 0) (.dmaLoadPending f.data)
  | 0x5 => ifUnusedZero (f.d == 0 && f.data == 0 && f.len == 0 && f.addr == 0) .dmaReadPending
  | 0x6 => ifUnusedZero (f.d == 0 && f.data == 0 && f.len == 0 && f.addr == 0) .dmaGrant
  | 0x7 => ifUnusedZero (f.d == 0 && f.data == 0 && f.len == 0 && f.addr == 0) .dmaStep
  | 0x8 => ifUnusedZero (f.d == 0 && f.data == 0 && f.len == 0 && f.addr == 0) .dmaAck
  | 0x9 => ifUnusedZero (f.d == 0 && f.data == 0 && f.len == 0 && f.addr == 0) .dmaStatus
  | 0xA => ifUnusedZero (f.d == 0 && f.len == 0 && f.addr == 0) (.romLoad f.data)
  | 0xB => ifUnusedZero (f.d == 0 && f.data == 0 && f.len == 0 && f.addr == 0) .fwInstall
  | 0xC => ifUnusedZero (f.d == 0 && f.data == 0 && f.len == 0 && f.addr == 0) .start
  | 0xD => ifUnusedZero (f.d == 0 && f.len == 0 && f.addr == 0) (.regionQuery f.data)
  | _ => .error .reservedOpcode

/-- The request that a REQ48's fields stand for, or why they stand for none (R83). -/
def decodeFields (f : Req48) : Except DecodeReject Instr :=
  if f.rsv = 0#3 then decodeOp f else .error .reservedBits

/-- The decoder of request words (R89): the operation code and the must-be-zero checks, nothing else. -/
def decode (w : RequestWord) : Except DecodeReject Instr := decodeFields (splitWord w)

/-- The operation code of a request (R82). -/
def opcode : Instr → BitVec 4
  | .resolve _ _ => 0x0#4
  | .read _ => 0x1#4
  | .write _ _ => 0x2#4
  | .dmaConfig _ _ _ _ => 0x3#4
  | .dmaLoadPending _ => 0x4#4
  | .dmaReadPending => 0x5#4
  | .dmaGrant => 0x6#4
  | .dmaStep => 0x7#4
  | .dmaAck => 0x8#4
  | .dmaStatus => 0x9#4
  | .romLoad _ => 0xA#4
  | .fwInstall => 0xB#4
  | .start => 0xC#4
  | .regionQuery _ => 0xD#4

/-- A request with no operand: every field but `op` is 0 (R83). -/
def bareFields (op : BitVec 4) : Req48 := { op := op, d := 0#1, rsv := 0#3, data := 0#8, len := 0#16, addr := 0#16 }

/-- The fields of a request (R82): its operands in place, every other field 0. -/
def encodeFields : Instr → Req48
  | .resolve kind addr => { bareFields 0x0#4 with d := bitOfKind kind, addr := addr }
  | .read addr => { bareFields 0x1#4 with addr := addr }
  | .write data addr => { bareFields 0x2#4 with data := data, addr := addr }
  | .dmaConfig dir pending len start =>
    { bareFields 0x3#4 with d := bitOfKind dir, data := pending, len := len, addr := start }
  | .dmaLoadPending data => { bareFields 0x4#4 with data := data }
  | .dmaReadPending => bareFields 0x5#4
  | .dmaGrant => bareFields 0x6#4
  | .dmaStep => bareFields 0x7#4
  | .dmaAck => bareFields 0x8#4
  | .dmaStatus => bareFields 0x9#4
  | .romLoad region => { bareFields 0xA#4 with data := region }
  | .fwInstall => bareFields 0xB#4
  | .start => bareFields 0xC#4
  | .regionQuery region => { bareFields 0xD#4 with data := region }

/-- The request word of a request (R81, R82). -/
def encode (i : Instr) : RequestWord := joinWord (encodeFields i)

/-- The word whose low `nbits` bits are those of `w` and whose other bits are 0. -/
def tableWord (nbits w : Nat) : RequestWord := BitVec.ofNat 48 (w % 2 ^ nbits)

/-- What the decoder reads from a word of spec/opcode_table.json. A request word is presented whole at the port, bit 0 the
least significant: it is not stored in memory and has no byte order (R80, R81; log 13). -/
def decodeTableWord (nbits w : Nat) : Option Instr := (decode (tableWord nbits w)).toOption

end Sys2Proof
end

