-- ==== Sys2Proof/Machine/State.lean ====
section
/-! DEFINITION. The state of the block (10_state.md), its ports as plain data (30_encoding.md R80, R84, R88), the reasons a
step can stop, and the state after reset (70_reset_and_hazards.md R240). -/

namespace Sys2Proof.Machine

/-- The 1-bit register `phase` (R26): 0 Boot, 1 Run. -/
inductive Phase where
  | boot
  | run
deriving DecidableEq, Repr

/-- The 2-bit register `dma_state` (R28), in the order of its encoding. -/
inductive DmaState where
  | idle
  | requested
  | active
  | complete
deriving DecidableEq, Repr

/-- The two bus owners (R34). -/
inductive BusOwner where
  | cpu
  | dma
deriving DecidableEq, Repr

/-- The statuses of R86, in the order of their codes; the codes 0xB to 0xF are never produced. -/
inductive Status where
  | ok
  | unmappedAddress
  | writeProtected
  | busBusy
  | dmaOutOfRange
  | dmaAborted
  | romNotFound
  | romTooLarge
  | romMalformedBit
  | illegalRequest
  | noEffect
deriving DecidableEq, Repr

/-- The two failures of the address decoder (R110): `AccessFault` of the glossary (R12). -/
inductive AccessFault where
  | unmappedAddress
  | writeProtected
deriving DecidableEq, Repr

/-- What the address decoder returns (R110). -/
inductive Decoded where
  | ok (offset : Addr) (region : RegionId)
  | fail (fault : AccessFault) (region : RegionId)
deriving DecidableEq, Repr

/-- The response bundle of R84. Every field that a rule does not name is 0. -/
structure Response where
  status : Status
  region : RegionId := 0#3
  cause  : BitVec 4 := 0#4
  data   : Byte := 0#8
  addr   : Addr := 0#16
  addr2  : Addr := 0#16
  count  : BitVec 32 := 0#32
  max    : BitVec 17 := 0#17
deriving DecidableEq, Repr

/-- The contents of the image port (R88): `img_present`, and the characters `img[0 .. img_len-1]`. Their number `img_len` fits
its 32 bits: an image of 2^32 characters or more cannot be presented (R88; log 5, log 6). -/
structure Image where
  present : Bool
  chars   : List Byte
  fits    : chars.length < 2 ^ 32
deriving DecidableEq, Repr

/-- A malformed image character (R146): its offset in the image and the byte found there. -/
structure MalformedBit where
  offset : Nat
  char   : Byte
deriving DecidableEq, Repr

/-- What can arrive at the block from outside: a request word together with what the image port shows while it is served
(R80, R88), or the reset input (R240, R241; log 4). -/
inductive PortEvent where
  | request (word : RequestWord) (image : Image)
  | reset
deriving DecidableEq, Repr

/-- Contents of the backing store `mem` (R20): address and byte pairs, addresses rising, no byte 0x00 listed. An address not
listed reads 0x00 (R20; log 18). -/
abbrev Memory := List Host.Cell

/-- The canonical form of a memory: addresses strictly rising and inside the address space, no entry equal to what an
unlisted address reads as. -/
abbrev Memory.wf (m : Memory) : Prop :=
  m.Pairwise (fun c d => c.1 < d.1) ∧ ∀ c ∈ m, c.1 < Config.memSize ∧ c.2 ≠ 0x00#8

/-- Everything the block holds (10_state.md section 7), the parameter `REGION_TABLE` (R8; log 7), and its ports. -/
structure State where
  /-- The backing store (R20). -/
  mem         : Memory
  /-- The write policy of region 0 (R24). -/
  fwWritable  : Bool
  /-- Boot or Run (R26). -/
  phase       : Phase
  /-- Sticky failure of a ROM_LOAD (R27). -/
  romFault    : Bool
  /-- The arbiter's state (R28). -/
  dmaState    : DmaState
  /-- The address of the next byte to move (R29). -/
  dmaStart    : Addr
  /-- The bytes still to move (R30). -/
  dmaLen      : DmaLength
  /-- The direction (R31). -/
  dmaDir      : AccessKind
  /-- The byte being moved (R32). -/
  dmaPending  : Byte
  /-- The error latch: an abort is latched (R33). -/
  dmaErrValid : Bool
  /-- The error latch: the address of the abort (R33). -/
  dmaErrAddr  : Addr
  /-- The error latch: the status code of the decode failure (R33). -/
  dmaErrCause : BitVec 4
  /-- The region table, a constant of the machine (R8, R22; log 7). -/
  table       : RegionTable
  /-- What the image port shows to the request being served (R88; log 5). -/
  image       : Image
  /-- The response of the last request served (R80, R84; log 2). -/
  response    : Option Response
  /-- The events still to come at the port, the next one first (R80, R181; log 1). -/
  inbox       : List PortEvent
deriving DecidableEq, Repr

/-- No step of the block ends in a fault: it has no traps, and every failure is the status of a response (R215). -/
inductive Fault where
deriving DecidableEq, Repr

/-- The reasons a step is refused. -/
inductive Refusal where
  /-- The host's name for a request without a meaning. No arm of `exec` raises it: every request has its meaning. -/
  | notModelled (mnemonic : String)
  /-- Raised by `step` for a state whose region table fails WF1 to WF4: "A model refuses a configuration that fails one"
  (R23; log 7). Safe: such a machine does not exist. -/
  | illFormedRegionTable
deriving DecidableEq, Repr

/-- The image port of a machine to which no image has been shown (log 5). -/
def Image.absent : Image := { present := false, chars := [], fits := by decide }

/-- The state after reset (R240), with the default region table (R22), no response given yet (log 2) and no event waiting
(log 1). -/
def State.reset : State :=
  { mem         := [],
    fwWritable  := true,
    phase       := .boot,
    romFault    := false,
    dmaState    := .idle,
    dmaStart    := 0x0000#16,
    dmaLen      := 0x0000#16,
    dmaDir      := .read,
    dmaPending  := 0x00#8,
    dmaErrValid := false,
    dmaErrAddr  := 0x0000#16,
    dmaErrCause := 0x0#4,
    table       := Config.defaultTable,
    image       := Image.absent,
    response    := none,
    inbox       := [] }

end Sys2Proof.Machine
end

