-- ==== Sys2Proof/Machine/Flags.lean ====
section
/-! DEFINITION. The codes and the derived bits of the block: status codes (30_encoding.md R86), the arbiter's encoding
(10_state.md R28), the bus owner (R34), the level outputs (R37) and the DMA_STATUS byte (44_dma_arbiter.md R179). The block
has no condition flags (R21): every request rule says "Flags written: none". -/

namespace Sys2Proof.Machine

/-- The 4-bit code of a status (R86). -/
def Status.code : Status → BitVec 4
  | .ok => 0x0#4
  | .unmappedAddress => 0x1#4
  | .writeProtected => 0x2#4
  | .busBusy => 0x3#4
  | .dmaOutOfRange => 0x4#4
  | .dmaAborted => 0x5#4
  | .romNotFound => 0x6#4
  | .romTooLarge => 0x7#4
  | .romMalformedBit => 0x8#4
  | .illegalRequest => 0x9#4
  | .noEffect => 0xA#4

/-- The status that reports a decode failure (R86, R110). -/
def AccessFault.status : AccessFault → Status
  | .unmappedAddress => .unmappedAddress
  | .writeProtected => .writeProtected

/-- The status code that the error latch and DMA_ABORTED hold for a decode failure (R33, R177). -/
def AccessFault.cause (f : AccessFault) : BitVec 4 := f.status.code

/-- The 2-bit encoding of `dma_state` (R28). -/
def DmaState.code : DmaState → BitVec 2
  | .idle => 0#2
  | .requested => 1#2
  | .active => 2#2
  | .complete => 3#2

/-- The 1-bit encoding of `phase` (R26). -/
def Phase.code : Phase → BitVec 1
  | .boot => 0#1
  | .run => 1#1

/-- The bus owner, a function of `dma_state` (R34). -/
def State.busOwner (s : State) : BusOwner := if s.dmaState = .active then .dma else .cpu

/-- The level output `dma_busy` (R37). -/
def State.dmaBusy (s : State) : Bool := s.dmaState == .active

/-- The level output `dma_done` (R37). -/
def State.dmaDone (s : State) : Bool := s.dmaState == .complete

/-- The data byte of DMA_STATUS (R179): `0000` above `dma_err_valid`, `dma_dir` and `dma_state`. -/
def State.dmaStatusByte (s : State) : Byte :=
  0x0#4 ++ BitVec.ofBool s.dmaErrValid ++ bitOfKind s.dmaDir ++ s.dmaState.code

end Sys2Proof.Machine
end

