-- ==== Sys2Proof/Machine/Operands.lean ====
section
/-! DEFINITION. The operand forms of the requests (30_encoding.md R87, R88): region indexes, the capacity of a region, the
write policy of an entry, the DMA range, the length of an image and its characters. -/

namespace Sys2Proof

/-- The capacity of a region, `limit - base + 1`, in 17 bits (R112, R141). -/
def Region.capacity (r : Region) : BitVec 17 := r.limit.setWidth 17 - r.base.setWidth 17 + 1#17

/-- The address lies between the region's bounds, both included (R22, R110). -/
def Region.holds (r : Region) (a : Addr) : Bool := r.base ≤ a && a ≤ r.limit

end Sys2Proof

namespace Sys2Proof.Machine

/-- The entry that an 8-bit region index names, or none when the index is `>= N_REGIONS`: the whole field is compared, not a
slice of it (R87). -/
def State.region? (s : State) (idx : Byte) : Option Region := s.table[idx.toNat]?

/-- The region field of a response, for the table index `i` (R85). -/
def regionId (i : Nat) : RegionId := BitVec.ofNat 3 i

/-- The region field that means "no region" (R85). -/
def noRegion : RegionId := 7#3

/-- The write policy of an entry, given `fw_writable` (R25). -/
def writableBy (fwWritable : Bool) (r : Region) : Bool :=
  match r.policy with
  | .fwRegister => fwWritable
  | .constant w => w

/-- The data byte of REGION_QUERY: the write policy, zero-extended (R112). -/
def policyByte (w : Bool) : Byte := (BitVec.ofBool w).setWidth 8

/-- The last byte of a DMA transfer would lie beyond 0xFFFF, computed in 17 bits (R171). Used only with `len >= 1`. -/
def dmaOutOfRange (start : Addr) (len : DmaLength) : Bool :=
  start.setWidth 17 + len.setWidth 17 - 1#17 > 0x0FFFF#17

/-- The count field that reports a DMA length (R171, R175, R179). -/
def lengthCount (len : DmaLength) : BitVec 32 := len.setWidth 32

/-- `img_len` (R88): the number of characters, which its 32 bits hold exactly. -/
def Image.len (img : Image) : ImageLength := BitVec.ofNat 32 img.chars.length

/-- The byte is one of the characters '0' and '1' (R140). -/
def isBitChar (c : Byte) : Bool := c == 0x30#8 || c == 0x31#8

/-- One step of the formatter's shift register: `{acc[6:0], c[0]}` (R141). -/
def shiftIn (acc : Byte) (c : Byte) : Byte := acc.extractLsb' 0 7 ++ c.extractLsb' 0 1

end Sys2Proof.Machine
end

