-- ==== Sys2Proof/Machine/Ops.lean ====
section
/-! DEFINITION. The operations that requests share: the backing store's primitives (20_memory.md R52, R53), the address
decoder (40_decoder.md R110) and the two ways a request ends (00_scope.md R10). The block has no trap: ending with a
non-OK status is all that a failure does, and nothing returns from it (60_exceptions.md R215, R218). -/

namespace Sys2Proof.Machine

/-- What a byte that is not listed reads as: the reset contents of the backing store (R20). -/
def unlistedByte : Byte := 0x00#8

/-- The byte at an address. -/
def Memory.read : Memory → Nat → Byte
  | [], _ => unlistedByte
  | (b, v) :: m, a => if a = b then v else Memory.read m a

/-- Put a byte in front of a memory whose addresses are all above it, keeping the canonical form. -/
def Memory.cons (a : Nat) (v : Byte) (m : Memory) : Memory := if v = unlistedByte then m else (a, v) :: m

/-- Replace the byte at an address, keeping the canonical form. -/
def Memory.write : Memory → Nat → Byte → Memory
  | [], a, v => Memory.cons a v []
  | (b, w) :: m, a, v =>
    if a < b then Memory.cons a v ((b, w) :: m)
    else if a = b then Memory.cons a v m
    else (b, w) :: Memory.write m a v

/-- `MemRead(a, 1)` (R52): the decoder's offset is the address itself (R54). -/
def State.load (s : State) (a : Addr) : Byte := s.mem.read a.toNat

/-- `MemWrite(a, 1, v)` (R53). -/
def State.store (s : State) (a : Addr) (v : Byte) : State := { s with mem := s.mem.write a.toNat v }

/-- The scan of the address decoder, from the entry of index `i` on (R110): the first entry that holds the address decides,
and its region check comes before its policy check (R114). -/
def decodeFrom (fwWritable : Bool) (a : Addr) (kind : AccessKind) : Nat → RegionTable → Decoded
  | _, [] => .fail .unmappedAddress noRegion
  | i, r :: rest =>
    if r.holds a then
      if kind = .write ∧ writableBy fwWritable r = false then .fail .writeProtected (regionId i)
      else .ok a (regionId i)
    else decodeFrom fwWritable a kind (i + 1) rest

/-- `Decode(a, kind)` (R110): reads the region table and `fw_writable` and writes nothing. -/
def State.decodeAddr (s : State) (a : Addr) (kind : AccessKind) : Decoded :=
  decodeFrom s.fwWritable a kind 0 s.table

/-- The state with the given response at the response output (R80, R84). -/
def State.answer (s : State) (r : Response) : State := { s with response := some r }

/-- `respond S(...)` (R10): the request ends with this response. -/
def respond (r : Response) (s : State) : Host.Outcome State Fault Refusal := .next (s.answer r)

/-- `raise S(...)` (R10): the request ends with a non-OK status. Earlier writes of the request stay, and the block goes on
with the next request: no trap, no change of control flow (R215). -/
def raise (r : Response) (s : State) : Host.Outcome State Fault Refusal := .next (s.answer r)

/-- The response of an address-decode failure of READ, WRITE or RESOLVE: its status, the region, the address (R210). -/
def accessFailure (f : AccessFault) (g : RegionId) (a : Addr) : Response :=
  { status := f.status, region := g, addr := a }

end Sys2Proof.Machine
end

