-- ==== Sys2Proof/Machine/Access.lean ====
section
/-! DEFINITION. The CPU's byte accesses of 41_access.md: READ and WRITE. -/

namespace Sys2Proof.Machine

/-- READ (R130): arbitration before the decoder (R132), then the byte. -/
def execRead (addr : Addr) (s : State) : Host.Outcome State Fault Refusal :=
  if s.dmaState = .active then raise { status := .busBusy, addr := addr } s
  else
    match s.decodeAddr addr .read with
    | .fail f g => raise (accessFailure f g addr) s
    | .ok offset g => respond { status := .ok, data := s.load offset, region := g, addr := addr } s

/-- WRITE (R131): arbitration before the decoder (R132), then the byte. A failed WRITE changes nothing. -/
def execWrite (data : Byte) (addr : Addr) (s : State) : Host.Outcome State Fault Refusal :=
  if s.dmaState = .active then raise { status := .busBusy, addr := addr } s
  else
    match s.decodeAddr addr .write with
    | .fail f g => raise (accessFailure f g addr) s
    | .ok offset g => respond { status := .ok, region := g, addr := addr } (s.store offset data)

end Sys2Proof.Machine
end

