-- ==== Sys2Proof/Machine/AddressDecoder.lean ====
section
/-! DEFINITION. The requests of 40_decoder.md: RESOLVE and REGION_QUERY. -/

namespace Sys2Proof.Machine

/-- RESOLVE (R111): probe the decoder. Allowed in every `dma_state`. -/
def execResolve (kind : AccessKind) (addr : Addr) (s : State) : Host.Outcome State Fault Refusal :=
  match s.decodeAddr addr kind with
  | .fail f g => raise (accessFailure f g addr) s
  | .ok offset g => respond { status := .ok, region := g, addr := offset } s

/-- REGION_QUERY (R112): read one region-table entry. Allowed in every state. -/
def execRegionQuery (idx : Byte) (s : State) : Host.Outcome State Fault Refusal :=
  match s.region? idx with
  | none => raise { status := .illegalRequest } s
  | some r =>
    respond
      { status := .ok, region := regionId idx.toNat, addr := r.base, addr2 := r.limit, max := r.capacity,
        data := policyByte (writableBy s.fwWritable r) } s

end Sys2Proof.Machine
end

