-- ==== Sys2Proof/Machine/Dma.lean ====
section
/-! DEFINITION. The bus arbiter and the DMA engine of 44_dma_arbiter.md: DMA_CONFIG, DMA_LOAD_PENDING, DMA_READ_PENDING,
DMA_GRANT, DMA_STEP, DMA_ACK, DMA_STATUS. -/

namespace Sys2Proof.Machine

/-- The registers of an accepted configuration (R171): the transfer's, a cleared error latch, DmaRequested. -/
def State.configureDma (s : State) (dir : AccessKind) (pending : Byte) (len : DmaLength) (start : Addr) : State :=
  { s with
    dmaStart := start, dmaLen := len, dmaDir := dir, dmaPending := pending,
    dmaErrValid := false, dmaErrAddr := 0x0000#16, dmaErrCause := 0x0#4,
    dmaState := .requested }

/-- `Complete()` (R176): the transfer's registers cleared, `dma_pending` kept, the bus back to the CPU. -/
def State.completeDma (s : State) : State :=
  { s with dmaState := .complete, dmaStart := 0x0000#16, dmaDir := .read }

/-- The state changes of `Abort(a, s, g)` (R177): the transfer's registers cleared, `dma_pending` kept, the failure
latched, the bus back to the CPU. -/
def State.abortDma (s : State) (a : Addr) (f : AccessFault) : State :=
  { s with
    dmaState := .idle, dmaStart := 0x0000#16, dmaLen := 0x0000#16, dmaDir := .read,
    dmaErrValid := true, dmaErrAddr := a, dmaErrCause := f.cause }

/-- `Abort(a, s, g)` (R177). -/
def abort (a : Addr) (f : AccessFault) (g : RegionId) (s : State) : Host.Outcome State Fault Refusal :=
  raise { status := .dmaAborted, region := g, addr := a, cause := f.cause } (s.abortDma a f)

/-- The bookkeeping of a step that moved the byte at `a` (R175): one byte fewer to move, and the next address, or the end of
the transfer. -/
def State.advanceDma (s : State) (a : Addr) : State :=
  let t := { s with dmaLen := s.dmaLen - 1#16 }
  if t.dmaLen = 0x0000#16 then t.completeDma else { t with dmaStart := a + 1#16 }

/-- The response of a step that moved the byte `v` at `a` (R175): `count` is the number of bytes still to move. -/
def stepMoved (a : Addr) (g : RegionId) (v : Byte) (s : State) : Host.Outcome State Fault Refusal :=
  respond { status := .ok, region := g, addr := a, data := v, count := lengthCount (s.dmaLen - 1#16) } (s.advanceDma a)

/-- DMA_CONFIG (R171): configure a transfer and request the bus. A length of 0 is a no-op, checked after BUS_BUSY and before
the range (R216). -/
def execDmaConfig (dir : AccessKind) (pending : Byte) (len : DmaLength) (start : Addr) (s : State) :
    Host.Outcome State Fault Refusal :=
  if s.dmaState ≠ .idle then raise { status := .busBusy } s
  else if len = 0x0000#16 then respond { status := .ok } s
  else if dmaOutOfRange start len = true then
    raise { status := .dmaOutOfRange, addr := start, count := lengthCount len } s
  else respond { status := .ok, addr := start, count := lengthCount len } (s.configureDma dir pending len start)

/-- DMA_LOAD_PENDING (R172): write the pending byte. Allowed in every `dma_state`. -/
def execDmaLoadPending (data : Byte) (s : State) : Host.Outcome State Fault Refusal :=
  respond { status := .ok, data := data } { s with dmaPending := data }

/-- DMA_READ_PENDING (R173): read the pending byte. Allowed in every `dma_state`. -/
def execDmaReadPending (s : State) : Host.Outcome State Fault Refusal :=
  respond { status := .ok, data := s.dmaPending } s

/-- DMA_GRANT (R174): the arbiter hands the bus to the DMA engine. -/
def execDmaGrant (s : State) : Host.Outcome State Fault Refusal :=
  if s.dmaState ≠ .requested then respond { status := .noEffect } s
  else respond { status := .ok } { s with dmaState := .active }

/-- DMA_STEP (R175): the DMA engine moves one byte, through the same decoder as the CPU (R183). -/
def execDmaStep (s : State) : Host.Outcome State Fault Refusal :=
  if s.dmaState ≠ .active then respond { status := .noEffect } s
  else
    match s.dmaDir with
    | .write =>
      match s.decodeAddr s.dmaStart .write with
      | .fail f g => abort s.dmaStart f g s
      | .ok offset g => stepMoved s.dmaStart g s.dmaPending (s.store offset s.dmaPending)
    | .read =>
      match s.decodeAddr s.dmaStart .read with
      | .fail f g => abort s.dmaStart f g s
      | .ok offset g => stepMoved s.dmaStart g (s.load offset) { s with dmaPending := s.load offset }

/-- DMA_ACK (R178): acknowledge a completed transfer. It never stops one (R180). -/
def execDmaAck (s : State) : Host.Outcome State Fault Refusal :=
  if s.dmaState ≠ .complete then respond { status := .noEffect } s
  else respond { status := .ok } { s with dmaState := .idle }

/-- DMA_STATUS (R179): read the DMA registers and the error latch. Allowed in every state. -/
def execDmaStatus (s : State) : Host.Outcome State Fault Refusal :=
  respond
    { status := .ok, data := s.dmaStatusByte, addr := s.dmaStart, count := lengthCount s.dmaLen,
      addr2 := s.dmaErrAddr, cause := s.dmaErrCause } s

end Sys2Proof.Machine
end

