-- ==== Sys2Proof/Machine/Firmware.lean ====
section
/-! DEFINITION. The firmware bootstrap and the end of the boot phase, 43_firmware.md: FW_INSTALL and START. -/

namespace Sys2Proof.Machine

/-- Store a list of bytes at consecutive addresses from `a` on. -/
def storeBytes (a : Addr) : List Byte → State → State
  | [], s => s
  | v :: vs, s => storeBytes (a + 1#16) vs (s.store a v)

/-- FW_INSTALL (R161): once, in Boot, write the firmware image at 0x0000 and lock the region. The decode of each byte cannot
fail there (R161, WF4), and its result is not used (log 17). -/
def execFwInstall (s : State) : Host.Outcome State Fault Refusal :=
  if s.phase ≠ .boot then raise { status := .illegalRequest } s
  else if s.fwWritable = false then raise { status := .illegalRequest } s
  else if s.dmaState = .active then raise { status := .busBusy } s
  else
    respond { status := .ok, region := regionId Config.fwRegion, count := 6#32 }
      { storeBytes 0x0000#16 Config.fwImage s with fwWritable := false }

/-- START (R163): end the boot phase, unless a ROM_LOAD has failed. Allowed in every `dma_state`. -/
def execStart (s : State) : Host.Outcome State Fault Refusal :=
  if s.phase ≠ .boot then raise { status := .illegalRequest } s
  else if s.romFault = true then raise { status := .illegalRequest } s
  else respond { status := .ok } { s with phase := .run }

end Sys2Proof.Machine
end

