-- ==== Sys2Proof/Machine/RomFormatter.lean ====
section
/-! DEFINITION. The ROM formatter of 42_rom_formatter.md: ROM_LOAD. -/

namespace Sys2Proof.Machine

/-- The address of output byte `i div 8` of a load at `base` (R141, R144). -/
def romByteAddr (base : Addr) (i : Nat) : Addr := base + BitVec.ofNat 16 (i / 8)

/-- The formatter's loop (R141) from character `i` on, with the shift register `acc` (R38): each complete group of eight is
written at once, a partial group is not written (R147), and a malformed character ends the load with what is written so far
(R146). -/
def formatChars (base : Addr) : List Byte → Nat → Byte → State → State × Option MalformedBit
  | [], _, _, s => (s, none)
  | c :: cs, i, acc, s =>
    if isBitChar c then
      if i % 8 = 7 then
        formatChars base cs (i + 1) 0x00#8 (s.store (romByteAddr base i) (shiftIn acc c))
      else formatChars base cs (i + 1) (shiftIn acc c) s
    else (s, some { offset := i, char := c })

/-- A ROM error (R142): `rom_fault` is set and the error reported. -/
def romFail (r : Response) (s : State) : Host.Outcome State Fault Refusal := raise r { s with romFault := true }

/-- The part of ROM_LOAD after its refusals, into the region `r` of index `idx` (R141 steps 1 to 6). The size check compares
characters with bytes, as unbounded integers (R145). -/
def loadImage (idx : Byte) (r : Region) (s : State) : Host.Outcome State Fault Refusal :=
  let g := regionId idx.toNat
  if s.image.present = false then romFail { status := .romNotFound, region := g } s
  else if s.image.len.toNat > r.capacity.toNat then
    romFail { status := .romTooLarge, region := g, count := s.image.len, max := r.capacity } s
  else
    match formatChars r.base s.image.chars 0 0x00#8 s with
    | (t, some bad) =>
      romFail { status := .romMalformedBit, region := g, count := BitVec.ofNat 32 bad.offset, data := bad.char } t
    | (t, none) =>
      respond
        { status := .ok, region := g, count := s.image.len / 8#32,
          data := (s.image.len % 8#32).setWidth 8, max := r.capacity } t

/-- ROM_LOAD (R141): the refusals in the order of R216 (phase, index, busy, Firmware lock), then the load. Its writes do not
go through the write policy (R117). -/
def execRomLoad (idx : Byte) (s : State) : Host.Outcome State Fault Refusal :=
  if s.phase ≠ .boot then raise { status := .illegalRequest } s
  else
    match s.region? idx with
    | none => raise { status := .illegalRequest } s
    | some r =>
      if s.dmaState = .active then raise { status := .busBusy } s
      else if idx.toNat = Config.fwRegion ∧ s.fwWritable = false then
        raise { status := .writeProtected, region := regionId idx.toNat, addr := r.base } s
      else loadImage idx r s

end Sys2Proof.Machine
end

