-- ==== Sys2Proof/Machine/Dispatch.lean ====
section
/-! DEFINITION. One arm for each request (30_encoding.md R82): the direct call of its meaning. -/

namespace Sys2Proof.Machine

def exec (i : Instr) (s : State) : Host.Outcome State Fault Refusal :=
  match i with
  | .resolve kind addr => Sys2Proof.Machine.execResolve kind addr s
  | .read addr => Sys2Proof.Machine.execRead addr s
  | .write data addr => Sys2Proof.Machine.execWrite data addr s
  | .dmaConfig dir pending len start => Sys2Proof.Machine.execDmaConfig dir pending len start s
  | .dmaLoadPending data => Sys2Proof.Machine.execDmaLoadPending data s
  | .dmaReadPending => Sys2Proof.Machine.execDmaReadPending s
  | .dmaGrant => Sys2Proof.Machine.execDmaGrant s
  | .dmaStep => Sys2Proof.Machine.execDmaStep s
  | .dmaAck => Sys2Proof.Machine.execDmaAck s
  | .dmaStatus => Sys2Proof.Machine.execDmaStatus s
  | .romLoad region => Sys2Proof.Machine.execRomLoad region s
  | .fwInstall => Sys2Proof.Machine.execFwInstall s
  | .start => Sys2Proof.Machine.execStart s
  | .regionQuery region => Sys2Proof.Machine.execRegionQuery region s

end Sys2Proof.Machine
end

