-- ==== Sys2Proof/Machine/Port.lean ====
section
/-! DEFINITION. The request port (30_encoding.md R80) and the reset input (70_reset_and_hazards.md R240, R241): what one
event at the port does. -/

namespace Sys2Proof.Machine

/-- The state in which a request is served: the request taken off the inbox, and its image on the image port (R80, R88). -/
def State.accept (s : State) (image : Image) (rest : List PortEvent) : State :=
  { s with inbox := rest, image := image }

/-- Serve one request word (R80): run the request it encodes, or answer ILLEGAL_REQUEST and change no state. The illegality
check comes before every other check (R83, R216). -/
def serve (w : RequestWord) (s : State) : Host.Outcome State Fault Refusal :=
  match decode w with
  | .ok i => exec i s
  | .error _ => raise { status := .illegalRequest } s

/-- The reset input acts between requests (R240): every register and the store at its reset value, any transfer ended without
a report. The constant region table, the image port's pins and the events still to come stay (log 4, log 7). -/
def State.afterReset (s : State) (rest : List PortEvent) : State :=
  { State.reset with table := s.table, image := s.image, inbox := rest }

/-- Nothing at the port: the state persists (R225; log 3). -/
def idle (s : State) : Host.Outcome State Fault Refusal := .next s

/-- One event at the port, or none. -/
def servePort (s : State) : Host.Outcome State Fault Refusal :=
  match s.inbox with
  | [] => idle s
  | .reset :: rest => .next (s.afterReset rest)
  | .request w image :: rest => serve w (s.accept image rest)

end Sys2Proof.Machine
end

