-- ==== Sys2Proof/Machine/Step.lean ====
section
/-! DEFINITION. One step of the block: one request with its response (30_encoding.md R80), or a reset, or nothing. -/

namespace Sys2Proof.Machine

/-- One step. A machine whose region table fails a check of R23 is refused (log 7). -/
def step (s : State) : Host.Outcome State Fault Refusal :=
  if RegionTable.WF s.table then servePort s else .refused .illFormedRegionTable

/-- `s` with the request word of an opcode-table row as the next event at the port, the image port as it stands (log 13). -/
def State.withFetchWord (s : State) (nbits w : Nat) : State :=
  { s with inbox := .request (tableWord nbits w) s.image :: s.inbox }

end Sys2Proof.Machine
end

