-- ==== Sys2Proof/Machine/Assembler.lean ====
section
/-! DEFINITION. The notation of requests: the syntax of 30_encoding.md R90 and the pseudo-requests of R91 (log 19). -/

namespace Sys2Proof.Machine

/-- One hexadecimal digit, in capitals. -/
def hexDigit (n : Nat) : Char :=
  if n < 10 then Char.ofNat (48 + n) else Char.ofNat (55 + n)

/-- The low `digits` hexadecimal digits of a number. -/
def hexDigits : Nat → Nat → List Char
  | 0, _ => []
  | k + 1, n => hexDigits k (n / 16) ++ [hexDigit (n % 16)]

/-- A number with `0x` and a fixed number of digits (R90). -/
def hexChars (digits n : Nat) : List Char := ['0', 'x'] ++ hexDigits digits n

/-- The suffix `.R` or `.W` (R90). -/
def kindSuffix : AccessKind → List Char
  | .read => ['.', 'R', ' ']
  | .write => ['.', 'W', ' ']

/-- Operands with a comma and a space between. -/
def operandChars : List (List Char) → List Char
  | [] => []
  | [x] => x
  | x :: xs => x ++ [',', ' '] ++ operandChars xs

/-- The characters of a request in the syntax of R90. -/
def requestChars : Instr → List Char
  | .resolve kind addr => "RESOLVE".toList ++ kindSuffix kind ++ hexChars 4 addr.toNat
  | .read addr => "READ ".toList ++ hexChars 4 addr.toNat
  | .write data addr => "WRITE ".toList ++ operandChars [hexChars 4 addr.toNat, hexChars 2 data.toNat]
  | .dmaConfig dir pending len start =>
    "DMA_CONFIG".toList ++ kindSuffix dir ++
      operandChars [hexChars 4 start.toNat, hexChars 4 len.toNat, hexChars 2 pending.toNat]
  | .dmaLoadPending data => "DMA_LOAD_PENDING ".toList ++ hexChars 2 data.toNat
  | .dmaReadPending => "DMA_READ_PENDING".toList
  | .dmaGrant => "DMA_GRANT".toList
  | .dmaStep => "DMA_STEP".toList
  | .dmaAck => "DMA_ACK".toList
  | .dmaStatus => "DMA_STATUS".toList
  | .romLoad region => "ROM_LOAD ".toList ++ hexChars 2 region.toNat
  | .fwInstall => "FW_INSTALL".toList
  | .start => "START".toList
  | .regionQuery region => "REGION_QUERY ".toList ++ hexChars 2 region.toNat

/-- The pseudo-requests (R91). -/
inductive Pseudo where
  /-- `ROM_LOAD` with no operand. -/
  | romLoad
  /-- `DMA_CONFIG.R start, len` and `DMA_CONFIG.W start, len`, with no pending byte. -/
  | dmaConfig (dir : AccessKind) (start : Addr) (len : DmaLength)
  /-- `DMA_RUN n`. -/
  | dmaRun (n : Nat)
  /-- `BOOT`. -/
  | boot
deriving DecidableEq, Repr

/-- The fixed sequence of requests that a pseudo-request spells (R91). -/
def Pseudo.expand : Pseudo → List Instr
  | .romLoad => [.romLoad Config.romRegionDefault]
  | .dmaConfig dir start len => [.dmaConfig dir 0x00#8 len start]
  | .dmaRun n => [.dmaGrant] ++ List.replicate n .dmaStep ++ [.dmaAck]
  | .boot => [.romLoad Config.romRegionDefault, .fwInstall, .start]

/-- Run a sequence of requests in order. It goes on after a non-OK response (R91), since that is a next state; each
request's response stands in the state it leaves. -/
def execSeq : List Instr → State → Host.Outcome State Fault Refusal
  | [], s => .next s
  | i :: is, s =>
    match exec i s with
    | .next t => execSeq is t
    | .fault r => .fault r
    | .refused r => .refused r

end Sys2Proof.Machine
end

