-- ==== Sys2Proof/Safety.lean ====
section
/-! DEFINITION. The terms that claims about the block are stated in: the invariant of its registers (10_state.md R35) and
what else every step keeps, the illegal words of 30_encoding.md R83, and what a request reports. -/

namespace Sys2Proof.Machine

/-- I-A (R35): with no transfer configured, the transfer's registers are 0. -/
def State.IdleRegistersZero (s : State) : Prop :=
  s.dmaState = .idle ∨ s.dmaState = .complete → s.dmaStart = 0x0000#16 ∧ s.dmaLen = 0x0000#16 ∧ s.dmaDir = .read

/-- I-B (R35): with a transfer configured, a byte remains, and the last one lies inside the address space. -/
def State.TransferInRange (s : State) : Prop :=
  s.dmaState = .requested ∨ s.dmaState = .active →
    1 ≤ s.dmaLen.toNat ∧ s.dmaStart.toNat + s.dmaLen.toNat - 1 ≤ 0xFFFF

/-- The error latch (R33): all 0 when no abort is latched; otherwise the cause is 0x1 or 0x2. -/
def State.LatchConsistent (s : State) : Prop :=
  (s.dmaErrValid = false → s.dmaErrAddr = 0x0000#16 ∧ s.dmaErrCause = 0x0#4) ∧
  (s.dmaErrValid = true → s.dmaErrCause = 0x1#4 ∨ s.dmaErrCause = 0x2#4)

/-- No machine is in Run after a failed ROM_LOAD (R27, R163, R141). -/
def State.RunMeansNoRomFault (s : State) : Prop := s.phase = .run → s.romFault = false

/-- What every step keeps: the memory's canonical form, a well-formed region table, and the registers' invariants. -/
structure State.Inv (s : State) : Prop where
  memory   : s.mem.wf
  table    : RegionTable.WF s.table
  idleZero : s.IdleRegistersZero
  inRange  : s.TransferInRange
  latch    : s.LatchConsistent
  booted   : s.RunMeansNoRomFault

/-- A request word is illegal (R83): a reserved operation code, a non-zero `rsv`, or a non-zero field that the table of R82
does not list for the operation. -/
def IllegalWord (w : RequestWord) : Prop :=
  let op := w.extractLsb' 44 4
  op = 0xE#4 ∨ op = 0xF#4 ∨ w.extractLsb' 40 3 ≠ 0#3 ∨
  (op ∉ [0x0#4, 0x3#4] ∧ w.extractLsb' 43 1 ≠ 0#1) ∨
  (op ∉ [0x2#4, 0x3#4, 0x4#4, 0xA#4, 0xD#4] ∧ w.extractLsb' 32 8 ≠ 0#8) ∨
  (op ≠ 0x3#4 ∧ w.extractLsb' 16 16 ≠ 0#16) ∨
  (op ∉ [0x0#4, 0x1#4, 0x2#4, 0x3#4] ∧ w.extractLsb' 0 16 ≠ 0#16)

/-- The word with the given fields and `rsv` 0 (R81). -/
def req48 (op : BitVec 4) (d : BitVec 1) (data : Byte) (len : DmaLength) (addr : Addr) : RequestWord :=
  op ++ d ++ 0#3 ++ data ++ len ++ addr

/-- The status a state's response output shows, if it shows a response. -/
def State.status? (s : State) : Option Status := s.response.map Response.status

/-- The next event at the port is a request word that encodes `i`. -/
def State.NextIs (s : State) (i : Instr) : Prop :=
  ∃ w image rest, s.inbox = .request w image :: rest ∧ decode w = .ok i

/-- The next event at the port is the reset input. -/
def State.NextIsReset (s : State) : Prop := ∃ rest, s.inbox = .reset :: rest

/-- `t` differs from `s` in the response output only. -/
def State.SameButResponse (s t : State) : Prop := t = { s with response := t.response }

/-- The bus changes hands between two states. -/
def State.OwnerChanges (s t : State) : Prop := s.busOwner ≠ t.busOwner

/-- ROM_LOAD of index `idx` passes the checks that refuse it (R141, R211, R213): Boot, an existing region `r`, the bus not with
the DMA engine, and not the locked Firmware region. -/
def State.AdmitsRomLoad (s : State) (idx : Byte) (r : Region) : Prop :=
  s.phase = .boot ∧ s.table[idx.toNat]? = some r ∧ s.dmaState ≠ .active ∧ ¬(idx.toNat = 0 ∧ s.fwWritable = false)

/-- The number of bytes of a region, `limit - base + 1` (R22). -/
def sizeOfRegion (r : Region) : Nat := r.limit.toNat - r.base.toNat + 1

/-- The requests that R51 lists as not accessing `mem`. -/
def Instr.AvoidsMemory (i : Instr) : Prop :=
  match i with
  | .resolve _ _ => True
  | .regionQuery _ => True
  | .dmaConfig _ _ _ _ => True
  | .dmaLoadPending _ => True
  | .dmaReadPending => True
  | .dmaGrant => True
  | .dmaAck => True
  | .dmaStatus => True
  | .start => True
  | .read _ => False
  | .write _ _ => False
  | .dmaStep => False
  | .romLoad _ => False
  | .fwInstall => False

/-- In state `s` the request `i` cannot store at address `a` (R51): it stores nothing, or it is refused, or every byte it stores
is another one. A WRITE stores at its address (R131), a DMA_STEP of a Write transfer at `dma_start` (R175), a ROM_LOAD its
complete groups from its region's base (R141), FW_INSTALL at 0x0000 to 0x0005 (R161). -/
def Instr.CannotStoreAt (i : Instr) (s : State) (a : Addr) : Prop :=
  match i with
  | .write _ b => s.dmaState = .active ∨ b ≠ a
  | .dmaStep => s.dmaState ≠ .active ∨ s.dmaDir = .read ∨ s.dmaStart ≠ a
  | .romLoad idx =>
    s.phase = .run ∨ s.dmaState = .active ∨ s.image.present = false ∨
    ∀ r, s.table[idx.toNat]? = some r →
      (a.toNat < r.base.toNat ∨ r.limit.toNat < a.toNat) ∨ sizeOfRegion r < s.image.chars.length ∨
      ∀ k, k < s.image.chars.length / 8 → a ≠ r.base + BitVec.ofNat 16 k
  | .fwInstall => s.phase = .run ∨ s.fwWritable = false ∨ s.dmaState = .active ∨ 5 < a.toNat
  | .resolve _ _ => True
  | .read _ => True
  | .regionQuery _ => True
  | .dmaConfig _ _ _ _ => True
  | .dmaLoadPending _ => True
  | .dmaReadPending => True
  | .dmaGrant => True
  | .dmaAck => True
  | .dmaStatus => True
  | .start => True

/-- None of the requests, each in the state it is served in, can store at address `a`. -/
def NoneStoresAt : List Instr → State → Addr → Prop
  | [], _, _ => True
  | i :: is, s, a => Instr.CannotStoreAt i s a ∧ ∀ t, exec i s = .next t → NoneStoresAt is t a

/-- The transitions of `dma_state` that R170 lists, for a request `i` that leads from `s` to `t`. -/
def State.ListedTransition (s : State) (i : Instr) (t : State) : Prop :=
  (s.dmaState = .idle ∧ t.dmaState = .requested ∧ ∃ dir pending len start, i = .dmaConfig dir pending len start ∧
    1 ≤ len.toNat ∧ start.toNat + len.toNat - 1 ≤ 0xFFFF) ∨
  (s.dmaState = .requested ∧ t.dmaState = .active ∧ i = .dmaGrant) ∨
  (s.dmaState = .active ∧ t.dmaState = .complete ∧ i = .dmaStep ∧ s.dmaLen = 1#16 ∧
    ∃ g, s.decodeAddr s.dmaStart s.dmaDir = .ok s.dmaStart g) ∨
  (s.dmaState = .active ∧ t.dmaState = .idle ∧ i = .dmaStep ∧
    ∃ f g, s.decodeAddr s.dmaStart s.dmaDir = .fail f g) ∨
  (s.dmaState = .complete ∧ t.dmaState = .idle ∧ i = .dmaAck)

/-- The region an address lies in under the default table (R113). -/
def defaultRegionOf (a : Addr) : Nat :=
  if a.toNat ≤ 0x00FF then 0 else if a.toNat ≤ 0x6FFF then 1 else if a.toNat ≤ 0x7FFF then 2 else 3

/-- The bit value of a character of the image (R140): '0' is 0x30 and '1' is 0x31. -/
def charBit (c : Byte) : Nat := if c = 0x31#8 then 1 else 0

/-- The source's formula for output byte `k` (R143): the sum over j in 0..7 of `char[8k + j] << (7 - j)`. -/
def packedByte (chars : List Byte) (k : Nat) : Nat :=
  ((List.range 8).map (fun j => charBit (chars.getD (8 * k + j) 0x30#8) * 2 ^ (7 - j))).sum

/-- Every character of the image is '0' or '1'. -/
def AllBits (chars : List Byte) : Prop := ∀ c ∈ chars, c = 0x30#8 ∨ c = 0x31#8

/-- What a CPU needs to find when it begins fetching (R242, R243): its parameter `CPU_RESET_VECTOR` is 0x0000 (the OPEN
parameter of R7; log 16) and the firmware image stands there. -/
def State.FirmwareAtVector (s : State) (cpuResetVector : Addr) : Prop :=
  cpuResetVector = 0x0000#16 ∧
  ∀ j, j < 6 → s.load (cpuResetVector + BitVec.ofNat 16 j) = Config.fwImage.getD j 0x00#8

end Sys2Proof.Machine
end

