-- ==== Sys2Proof/Certificates/Slice0/Obligations.lean ====
section
/-! DEFINITION. The statements for the provers, from the numbered rules of spec/. A statement whose docstring says "stated"
formalises the rule named there; one that says "derived" rests on the sections named there, on an inference the spec marks
as its own, or on a choice of the model whose log entry it names. -/

open Sys2Proof Sys2Proof.Machine

/-! ### Encoding (30_encoding.md) -/

/-- Derived (30_encoding.md sections 1 and 3): no bit of a request's operands is lost in its word. -/
def Obligations.DecodeOfEncodeGivesBackTheRequest : Prop :=
  ∀ i : Instr, decode (encode i) = .ok i

/-- Derived (30_encoding.md section 1): a word that the decoder accepts is the word of the request it gives, so two
different words never decode to one request. -/
def Obligations.AcceptedWordIsTheWordOfItsRequest : Prop :=
  ∀ (w : RequestWord) (i : Instr), decode w = .ok i → encode i = w

/-- Derived (the encoding vectors of 95_test_vectors.md section 2): words written out from R81 decode to their requests. -/
def Obligations.EncodingVectorsDecode : Prop :=
  decode 0x0800_0000_8000#48 = .ok (.resolve .write 0x8000#16) ∧
  decode 0x1000_0000_0100#48 = .ok (.read 0x0100#16) ∧
  decode 0x205A_0000_0100#48 = .ok (.write 0x5A#8 0x0100#16) ∧
  decode 0x38AA_0004_0100#48 = .ok (.dmaConfig .write 0xAA#8 0x0004#16 0x0100#16) ∧
  decode 0x7000_0000_0000#48 = .ok .dmaStep ∧
  decode 0xA003_0000_0000#48 = .ok (.romLoad 0x03#8) ∧
  decode 0xB000_0000_0000#48 = .ok .fwInstall ∧
  decode 0xD001_0000_0000#48 = .ok (.regionQuery 0x01#8)

/-- Derived (30_encoding.md section 1): the decoder refuses exactly the illegal words. -/
def Obligations.DecoderRefusesExactlyTheIllegalWords : Prop :=
  ∀ w : RequestWord, (∃ e, decode w = .error e) ↔ IllegalWord w

/-- Derived (30_encoding.md section 1): an illegal word is answered with ILLEGAL_REQUEST (status 0x9) and changes no state,
whatever the state. That the inbox moves on to the next event and that the image port shows the request's image are the
model's choices (log 1, log 5). -/
def Obligations.IllegalWordIsAnsweredAndChangesNoState : Prop :=
  ∀ (s : State) (w : RequestWord) (image : Image) (rest : List PortEvent),
    RegionTable.WF s.table → s.inbox = .request w image :: rest → IllegalWord w →
    step s = .next { s with inbox := rest, image := image, response := some { status := .illegalRequest } } ∧
    Status.code .illegalRequest = 0x9#4

/-! ### The step, reset and the configuration -/

/-- Derived (30_encoding.md section 1): when the next word at the port decodes to `i`, the step is `exec i` in the state with
that event taken off the inbox and its image on the image port (the model's form of the port: log 1, log 5). -/
def Obligations.StepRunsTheDecodedRequest : Prop :=
  ∀ (s : State) (w : RequestWord) (image : Image) (rest : List PortEvent) (i : Instr),
    RegionTable.WF s.table → s.inbox = .request w image :: rest → decode w = .ok i →
    step s = exec i { s with inbox := rest, image := image }

/-- Derived (60_exceptions.md section 2): on a well-formed table no step stops, and every request of every state is answered
with one response; no request touches the region table, the image port or the events to come. With no event at the port
the state persists (60_exceptions.md section 5; the model's choice of log 3). -/
def Obligations.EveryRequestIsAnswered : Prop :=
  (∀ s : State, RegionTable.WF s.table → ∃ t, step s = .next t) ∧
  (∀ s : State, RegionTable.WF s.table → s.inbox = [] → step s = .next s) ∧
  ∀ (i : Instr) (s : State), ∃ t r, exec i s = .next t ∧ t.response = some r ∧
    t.table = s.table ∧ t.image = s.image ∧ t.inbox = s.inbox

/-- Derived (10_state.md section 3): the step is refused exactly when the region table fails a check: its size, the order of each entry's bounds,
disjointness, and the firmware entry with its register policy and constant policies elsewhere. That the refusal is the
step's own outcome is the model's choice (log 7). -/
def Obligations.IllFormedRegionTableIsRefused : Prop :=
  ∀ s : State, step s = .refused .illFormedRegionTable ↔
    ¬((1 ≤ s.table.length ∧ s.table.length ≤ 7) ∧
      (∀ (i : Nat) (r : Region), s.table[i]? = some r → r.base.toNat ≤ r.limit.toNat) ∧
      (∀ (i j : Nat) (r q : Region), i < j → s.table[i]? = some r → s.table[j]? = some q →
        r.limit.toNat < q.base.toNat ∨ q.limit.toNat < r.base.toNat) ∧
      (∃ r : Region, s.table[0]? = some r ∧ r.base = 0x0000#16 ∧ 5 ≤ r.limit.toNat ∧ r.policy = .fwRegister) ∧
      ∀ (i : Nat) (r : Region), 0 < i → s.table[i]? = some r → ∃ b, r.policy = .constant b)

/-- Derived (70_reset_and_hazards.md section 1): the launch state has every register and every byte at its reset value and
the default table. The empty inbox and the absent response are the model's (log 1, log 2). -/
def Obligations.LaunchStateHasTheResetValues : Prop :=
  (∀ a, State.reset.load a = 0x00#8) ∧ State.reset.fwWritable = true ∧ State.reset.phase = .boot ∧
  State.reset.romFault = false ∧ State.reset.dmaState = .idle ∧ State.reset.dmaStart = 0x0000#16 ∧
  State.reset.dmaLen = 0x0000#16 ∧ State.reset.dmaDir = .read ∧ State.reset.dmaPending = 0x00#8 ∧
  State.reset.dmaErrValid = false ∧ State.reset.dmaErrAddr = 0x0000#16 ∧ State.reset.dmaErrCause = 0x0#4 ∧
  State.reset.busOwner = .cpu ∧ State.reset.table = Config.defaultTable ∧
  State.reset.response = none ∧ State.reset.inbox = []

/-- Derived (70_reset_and_hazards.md section 1): the reset input, in any state, sets every piece of state to its reset value,
a transfer in progress included; the region table is a constant and stays. Three clauses are the model's choice: that the
events to come and the image port stay (log 4), and that no response shows (log 2, log 4). -/
def Obligations.ResetInputSetsEveryResetValue : Prop :=
  ∀ (s : State) (rest : List PortEvent), RegionTable.WF s.table → s.inbox = .reset :: rest →
    ∃ t, step s = .next t ∧ (∀ a, t.load a = 0x00#8) ∧ t.fwWritable = true ∧ t.phase = .boot ∧ t.romFault = false ∧
      t.dmaState = .idle ∧ t.dmaStart = 0x0000#16 ∧ t.dmaLen = 0x0000#16 ∧ t.dmaDir = .read ∧ t.dmaPending = 0x00#8 ∧
      t.dmaErrValid = false ∧ t.dmaErrAddr = 0x0000#16 ∧ t.dmaErrCause = 0x0#4 ∧ t.busOwner = .cpu ∧
      t.table = s.table ∧ t.image = s.image ∧ t.response = none ∧ t.inbox = rest

/-! ### The invariant of every step -/

/-- Derived (10_state.md sections 1, 4 and 5): the invariant holds at reset. -/
def Obligations.InvariantHoldsAtReset : Prop := State.reset.Inv

/-- Derived (10_state.md section 5, whose invariants I-A and I-B the spec marks as its own inference, and sections 1 and 4):
every step keeps the canonical memory, the well-formed table, I-A, I-B, the consistency of the error latch, and that
no machine is in Run after a failed ROM_LOAD. -/
def Obligations.EveryStepKeepsTheInvariant : Prop :=
  ∀ s t : State, s.Inv → step s = .next t → t.Inv

/-! ### The backing store and the address decoder (20_memory.md, 40_decoder.md) -/

/-- Stated, R53: a write sets the byte at its address, and no other byte and nothing else changes. -/
def Obligations.MemWriteReplacesExactlyOneByte : Prop :=
  ∀ (s : State) (a : Addr) (v : Byte), s.mem.wf →
    (s.store a v).load a = v ∧ (∀ b, b ≠ a → (s.store a v).load b = s.load b) ∧
    s.store a v = { s with mem := (s.store a v).mem }

/-- Derived (40_decoder.md section 1; that the scan order changes no result is the spec's inference): in a disjoint table,
the entry that holds the address decides, by its write policy for a write. -/
def Obligations.DecodeIsDecidedByTheHoldingRegion : Prop :=
  ∀ (s : State) (a : Addr) (kind : AccessKind), RegionTable.WF3 s.table →
    ∀ (i : Nat) (r : Region), s.table[i]? = some r → r.base.toNat ≤ a.toNat → a.toNat ≤ r.limit.toNat →
      (kind = .write → writableBy s.fwWritable r = false →
        s.decodeAddr a kind = .fail .writeProtected (BitVec.ofNat 3 i)) ∧
      (kind = .read ∨ writableBy s.fwWritable r = true → s.decodeAddr a kind = .ok a (BitVec.ofNat 3 i))

/-- Stated, R114: an address outside every region gives UNMAPPED_ADDRESS, whatever the kind. -/
def Obligations.AddressOutsideEveryRegionIsUnmapped : Prop :=
  ∀ (s : State) (a : Addr) (kind : AccessKind),
    (∀ r ∈ s.table, a.toNat < r.base.toNat ∨ r.limit.toNat < a.toNat) →
    s.decodeAddr a kind = .fail .unmappedAddress 7#3

/-- Stated, R25: the write policy of entry 0 is the register `fw_writable`, and of every other entry its constant; for the
default table, writable for the entries 1 and 2 and read-only for the entry 3. -/
def Obligations.WritePolicyOfEachEntry : Prop :=
  ∀ (s : State) (i : Nat) (r : Region), RegionTable.WF s.table → s.table[i]? = some r →
    (i = 0 → writableBy s.fwWritable r = s.fwWritable) ∧
    (0 < i → ∃ b, r.policy = .constant b ∧ writableBy s.fwWritable r = b) ∧
    (s.table = Config.defaultTable → (i = 1 ∨ i = 2 → writableBy s.fwWritable r = true) ∧
      (i = 3 → writableBy s.fwWritable r = false))

/-- Derived (40_decoder.md section 2; the spec marks it as its own inference): the default table has no gap, every address can
be read, and the write policy is that of the region. -/
def Obligations.DefaultTableDecodesEveryAddress : Prop :=
  ∀ (s : State) (a : Addr), s.table = Config.defaultTable →
    s.decodeAddr a .read = .ok a (BitVec.ofNat 3 (defaultRegionOf a)) ∧
    (defaultRegionOf a = 3 ∨ (defaultRegionOf a = 0 ∧ s.fwWritable = false) →
      s.decodeAddr a .write = .fail .writeProtected (BitVec.ofNat 3 (defaultRegionOf a))) ∧
    (defaultRegionOf a = 1 ∨ defaultRegionOf a = 2 ∨ (defaultRegionOf a = 0 ∧ s.fwWritable = true) →
      s.decodeAddr a .write = .ok a (BitVec.ofNat 3 (defaultRegionOf a)))

/-- Stated, R111: RESOLVE answers what the decoder answers, in every state, and writes no state. -/
def Obligations.ResolveAnswersTheDecoder : Prop :=
  ∀ (kind : AccessKind) (a : Addr) (s : State),
    encode (.resolve kind a) = req48 0x0#4 (bitOfKind kind) 0#8 0#16 a ∧
    (∀ g, s.decodeAddr a kind = .ok a g →
      exec (.resolve kind a) s = .next { s with response := some { status := .ok, region := g, addr := a } }) ∧
    (∀ f g, s.decodeAddr a kind = .fail f g →
      exec (.resolve kind a) s = .next { s with response := some { status := f.status, region := g, addr := a } })

/-- Stated, R112: REGION_QUERY answers the entry, with its capacity and its write policy, and writes no state; an index beyond
the table is refused. -/
def Obligations.RegionQueryAnswersTheEntry : Prop :=
  ∀ (idx : Byte) (s : State),
    encode (.regionQuery idx) = req48 0xD#4 0#1 idx 0#16 0#16 ∧
    (∀ r, RegionTable.WF s.table → s.table[idx.toNat]? = some r →
      ∃ size : BitVec 17, size.toNat = sizeOfRegion r ∧
        exec (.regionQuery idx) s = .next { s with
          response := some
            { status := .ok, region := BitVec.ofNat 3 idx.toNat, addr := r.base, addr2 := r.limit, max := size,
              data := if writableBy s.fwWritable r = true then 0x01#8 else 0x00#8 } }) ∧
    (s.table.length ≤ idx.toNat →
      exec (.regionQuery idx) s = .next { s with response := some { status := .illegalRequest } })

/-! ### CPU access (41_access.md) -/

/-- Stated, R130: READ answers BUS_BUSY while DmaActive, else the decoder's failure, else the byte; it writes no state. -/
def Obligations.ReadAnswersTheByte : Prop :=
  ∀ (a : Addr) (s : State),
    encode (.read a) = req48 0x1#4 0#1 0#8 0#16 a ∧
    (s.dmaState = .active →
      exec (.read a) s = .next { s with response := some { status := .busBusy, addr := a } }) ∧
    (∀ g, s.dmaState ≠ .active → s.decodeAddr a .read = .ok a g →
      exec (.read a) s =
        .next { s with response := some { status := .ok, data := s.load a, region := g, addr := a } }) ∧
    (∀ f g, s.dmaState ≠ .active → s.decodeAddr a .read = .fail f g →
      exec (.read a) s = .next { s with response := some { status := f.status, region := g, addr := a } })

/-- Stated, R131: WRITE stores its byte at its address on success and changes no other byte and no register; a failed WRITE
changes nothing. -/
def Obligations.WriteStoresItsByteOnSuccessOnly : Prop :=
  ∀ (v : Byte) (a : Addr) (s : State),
    encode (.write v a) = req48 0x2#4 0#1 v 0#16 a ∧
    (s.dmaState = .active →
      exec (.write v a) s = .next { s with response := some { status := .busBusy, addr := a } }) ∧
    (∀ f g, s.dmaState ≠ .active → s.decodeAddr a .write = .fail f g →
      exec (.write v a) s = .next { s with response := some { status := f.status, region := g, addr := a } }) ∧
    (∀ g, s.mem.wf → s.dmaState ≠ .active → s.decodeAddr a .write = .ok a g →
      ∃ t, exec (.write v a) s = .next t ∧
        t = { s with mem := t.mem, response := some { status := .ok, region := g, addr := a } } ∧
        t.load a = v ∧ ∀ b, b ≠ a → t.load b = s.load b)

/-- Stated, R132: every READ and WRITE is refused with BUS_BUSY while DmaActive, with no state change, whatever the decoder
would say; in every other state the CPU owns the bus and no READ or WRITE is refused with it. -/
def Obligations.CpuAccessIsRefusedExactlyWhileDmaActive : Prop :=
  ∀ (s t : State) (i : Instr) (a : Addr) (v : Byte), (i = .read a ∨ i = .write v a) → exec i s = .next t →
    (s.dmaState = .active → t = { s with response := some { status := .busBusy, addr := a } }) ∧
    (s.dmaState ≠ .active → s.busOwner = .cpu ∧ t.status? ≠ some .busBusy)

/-- Derived (41_access.md, the source's first property, which the spec marks as its own inference; 20_memory.md section 5):
under the default table, a byte written to RAM is read back after any further requests of which none can store at its
address: a refused request, a DMA_STEP of a Read transfer or at another address, FW_INSTALL, and a ROM_LOAD whose bytes are
others, included. -/
def Obligations.ReadGivesTheLastByteWrittenToRam : Prop :=
  ∀ (s t u : State) (a : Addr) (v : Byte) (between : List Instr),
    s.mem.wf → s.table = Config.defaultTable → 0x0100 ≤ a.toNat → a.toNat ≤ 0x6FFF → s.dmaState ≠ .active →
    exec (.write v a) s = .next t → NoneStoresAt between t a → execSeq between t = .next u → u.dmaState ≠ .active →
    exec (.read a) u =
      .next { u with response := some { status := .ok, data := v, region := 1#3, addr := a } }

/-- Derived (20_memory.md section 3; log 9): the I/O region is served by the store like RAM and named as region 2. -/
def Obligations.IoRegionIsServedByTheStore : Prop :=
  ∀ (s : State) (a : Addr) (v : Byte), s.mem.wf → s.table = Config.defaultTable → s.dmaState ≠ .active →
    0x7000 ≤ a.toNat → a.toNat ≤ 0x7FFF →
    ∃ t, exec (.write v a) s = .next t ∧ t.response = some { status := .ok, region := 2#3, addr := a } ∧
      exec (.read a) t =
        .next { t with response := some { status := .ok, data := v, region := 2#3, addr := a } }

/-! ### ROM formatter (42_rom_formatter.md) -/

/-- Derived (42_rom_formatter.md; the order is that of 60_exceptions.md section 2): the four refusals of ROM_LOAD, in their
order, none of which changes anything. -/
def Obligations.RomLoadRefusalsInOrder : Prop :=
  ∀ (idx : Byte) (s : State),
    encode (.romLoad idx) = req48 0xA#4 0#1 idx 0#16 0#16 ∧
    (s.phase = .run → exec (.romLoad idx) s = .next { s with response := some { status := .illegalRequest } }) ∧
    (s.phase = .boot → s.table.length ≤ idx.toNat →
      exec (.romLoad idx) s = .next { s with response := some { status := .illegalRequest } }) ∧
    (s.phase = .boot → idx.toNat < s.table.length → s.dmaState = .active →
      exec (.romLoad idx) s = .next { s with response := some { status := .busBusy } }) ∧
    (∀ r, s.phase = .boot → idx.toNat = 0 → s.table[0]? = some r → s.dmaState ≠ .active → s.fwWritable = false →
      exec (.romLoad idx) s =
        .next { s with response := some { status := .writeProtected, region := 0#3, addr := r.base } })

/-- Derived (42_rom_formatter.md): a ROM_LOAD that is not refused answers ROM_NOT_FOUND without an image and ROM_TOO_LARGE when
the characters outnumber the region's bytes; both set `rom_fault` and store nothing. The `count` is the whole length: an
image has fewer than 2^32 characters by its type (log 6). -/
def Obligations.RomLoadImageErrorsBeforeTheFirstCharacter : Prop :=
  ∀ (idx : Byte) (r : Region) (s : State), RegionTable.WF s.table → s.AdmitsRomLoad idx r →
    (s.image.present = false →
      exec (.romLoad idx) s = .next { s with
        romFault := true, response := some { status := .romNotFound, region := BitVec.ofNat 3 idx.toNat } }) ∧
    (s.image.present = true → sizeOfRegion r < s.image.chars.length →
      ∃ size : BitVec 17, size.toNat = sizeOfRegion r ∧
        exec (.romLoad idx) s = .next { s with
          romFault := true,
          response := some { status := .romTooLarge, region := BitVec.ofNat 3 idx.toNat,
                             count := BitVec.ofNat 32 s.image.chars.length, max := size } })

/-- Derived (42_rom_formatter.md; the packing formula and the bounds are inferences that the spec marks as its own):
an image of '0' and '1' that fits is packed, eight characters a byte, most significant bit first, from the region's base;
a trailing partial group is not written and its length is reported; no other byte, and no register, changes; every byte
written lies in the region. -/
def Obligations.RomLoadPacksTheImage : Prop :=
  ∀ (idx : Byte) (r : Region) (s : State), s.mem.wf → RegionTable.WF s.table → s.AdmitsRomLoad idx r →
    s.image.present = true → s.image.chars.length ≤ sizeOfRegion r → AllBits s.image.chars →
    ∃ (t : State) (size : BitVec 17), size.toNat = sizeOfRegion r ∧ exec (.romLoad idx) s = .next t ∧
      t = { s with
        mem := t.mem,
        response := some { status := .ok, region := BitVec.ofNat 3 idx.toNat,
                           count := BitVec.ofNat 32 (s.image.chars.length / 8),
                           data := BitVec.ofNat 8 (s.image.chars.length % 8), max := size } } ∧
      (∀ k, k < s.image.chars.length / 8 →
        (t.load (r.base + BitVec.ofNat 16 k)).toNat = packedByte s.image.chars k ∧
        (r.base + BitVec.ofNat 16 k).toNat = r.base.toNat + k ∧ r.base.toNat + k ≤ r.limit.toNat) ∧
      ∀ a, (∀ k, k < s.image.chars.length / 8 → a ≠ r.base + BitVec.ofNat 16 k) → t.load a = s.load a

/-- Derived (42_rom_formatter.md; the packing formula is an inference that the spec marks as its own): the first byte of the image that is neither '0' nor '1' ends the load with ROM_MALFORMED_BIT, its offset and
the byte; the complete groups before it stay written, and nothing else is. -/
def Obligations.RomLoadEndsAtTheFirstMalformedCharacter : Prop :=
  ∀ (idx : Byte) (r : Region) (s : State) (i : Nat) (c : Byte), s.mem.wf → RegionTable.WF s.table → s.AdmitsRomLoad idx r →
    s.image.present = true → s.image.chars.length ≤ sizeOfRegion r →
    s.image.chars[i]? = some c → c ≠ 0x30#8 → c ≠ 0x31#8 → AllBits (s.image.chars.take i) →
    ∃ t, exec (.romLoad idx) s = .next t ∧
      t = { s with
        mem := t.mem, romFault := true,
        response := some { status := .romMalformedBit, region := BitVec.ofNat 3 idx.toNat,
                           count := BitVec.ofNat 32 i, data := c } } ∧
      (∀ k, k < i / 8 → (t.load (r.base + BitVec.ofNat 16 k)).toNat = packedByte s.image.chars k) ∧
      ∀ a, (∀ k, k < i / 8 → a ≠ r.base + BitVec.ofNat 16 k) → t.load a = s.load a

/-- Stated, R27 and R142: `rom_fault` is 0 at reset; it changes only to 1, by a ROM_LOAD that answers one of the three ROM
errors, each of which sets it; no request clears it, and a step that clears it is a reset; while it is 1, START is
refused. -/
def Obligations.RomFaultIsSetByRomErrorsAndClearedByResetOnly : Prop :=
  State.reset.romFault = false ∧
  (∀ (i : Instr) (s t : State), exec i s = .next t →
    (t.romFault ≠ s.romFault → (∃ idx, i = .romLoad idx) ∧ t.romFault = true ∧
      (t.status? = some .romNotFound ∨ t.status? = some .romTooLarge ∨ t.status? = some .romMalformedBit)) ∧
    (t.status? = some .romNotFound ∨ t.status? = some .romTooLarge ∨ t.status? = some .romMalformedBit →
      t.romFault = true)) ∧
  (∀ s t : State, step s = .next t → s.romFault = true → t.romFault = false → s.NextIsReset) ∧
  ∀ s : State, s.romFault = true → exec .start s = .next { s with response := some { status := .illegalRequest } }

/-! ### Firmware and start (43_firmware.md) -/

/-- Derived (43_firmware.md; that the decode in its loop cannot fail is the spec's inference): FW_INSTALL, once in Boot, writes
the six bytes at 0x0000 to 0x0005 and locks the region, and changes no other byte and no other register; its refusals, in
order, change nothing. -/
def Obligations.FwInstallWritesTheImageAndLocks : Prop :=
  ∀ s : State, encode .fwInstall = req48 0xB#4 0#1 0#8 0#16 0#16 ∧
    (s.phase = .run → exec .fwInstall s = .next { s with response := some { status := .illegalRequest } }) ∧
    (s.phase = .boot → s.fwWritable = false →
      exec .fwInstall s = .next { s with response := some { status := .illegalRequest } }) ∧
    (s.phase = .boot → s.fwWritable = true → s.dmaState = .active →
      exec .fwInstall s = .next { s with response := some { status := .busBusy } }) ∧
    (s.mem.wf → s.phase = .boot → s.fwWritable = true → s.dmaState ≠ .active →
      ∃ t, exec .fwInstall s = .next t ∧
        t = { s with mem := t.mem, fwWritable := false,
                     response := some { status := .ok, region := 0#3, count := 6#32 } } ∧
        t.load 0x0000#16 = 0x04#8 ∧ t.load 0x0001#16 = 0x04#8 ∧ t.load 0x0002#16 = 0xFF#8 ∧
        t.load 0x0003#16 = 0x01#8 ∧ t.load 0x0004#16 = 0x80#8 ∧ t.load 0x0005#16 = 0x00#8 ∧
        ∀ a : Addr, 5 < a.toNat → t.load a = s.load a)

/-- Stated, R163: START moves Boot to Run and writes nothing else, in any `dma_state`; it is refused in Run and after a failed
ROM_LOAD. -/
def Obligations.StartEndsTheBootPhase : Prop :=
  ∀ s : State, encode .start = req48 0xC#4 0#1 0#8 0#16 0#16 ∧
    (s.phase = .boot → s.romFault = false →
      exec .start s = .next { s with phase := .run, response := some { status := .ok } }) ∧
    (s.phase = .run ∨ s.romFault = true →
      exec .start s = .next { s with response := some { status := .illegalRequest } })

/-- Stated, R24: `fw_writable` is 1 at reset; the only request that changes it is FW_INSTALL, from 1 to 0, and the only step
that sets it back is a reset. -/
def Obligations.FirmwareLockIsSetByFwInstallAndClearedByResetOnly : Prop :=
  State.reset.fwWritable = true ∧
  ∀ s t : State, step s = .next t → t.fwWritable ≠ s.fwWritable →
    (s.NextIs .fwInstall ∧ s.fwWritable = true ∧ t.fwWritable = false) ∨
    (s.NextIsReset ∧ s.fwWritable = false ∧ t.fwWritable = true)

/-- Stated, R26: `phase` is Boot at reset; the only request that changes it is START, from Boot to Run, and the only step that
goes back to Boot is a reset. -/
def Obligations.PhaseIsChangedByStartAndResetOnly : Prop :=
  Phase.code .boot = 0#1 ∧ Phase.code .run = 1#1 ∧ State.reset.phase = .boot ∧
  ∀ s t : State, step s = .next t → t.phase ≠ s.phase →
    (s.NextIs .start ∧ s.phase = .boot ∧ t.phase = .run) ∨ (s.NextIsReset ∧ s.phase = .run ∧ t.phase = .boot)

/-- Derived (43_firmware.md, the source's property, which the spec marks as its own inference; 70_reset_and_hazards.md section
3): once locked, the Firmware region, bytes 0x0000 to its limit, keeps its bytes and its lock through every step but a
reset, for every well-formed table. -/
def Obligations.LockedFirmwareKeepsItsBytes : Prop :=
  ∀ (s t : State) (r : Region), s.Inv → s.table[0]? = some r → s.fwWritable = false → ¬s.NextIsReset → step s = .next t →
    t.fwWritable = false ∧ ∀ a : Addr, a.toNat ≤ r.limit.toNat → t.load a = s.load a

/-- Derived (20_memory.md section 6, an inference of the spec): after START, no step but a reset changes a byte of a read-only
region; under the default table that is the Program ROM. -/
def Obligations.ReadOnlyRegionsKeepTheirBytesInRun : Prop :=
  ∀ (s t : State) (r : Region) (a : Addr), s.Inv → s.phase = .run → ¬s.NextIsReset → step s = .next t →
    r ∈ s.table → r.policy = .constant false → r.base.toNat ≤ a.toNat → a.toNat ≤ r.limit.toNat →
    t.load a = s.load a

/-- Derived (70_reset_and_hazards.md section 2): from reset, with an image of '0' and '1' that fits the Program ROM, the boot
sequence of R91 ends in Run with Firmware locked, the firmware image where a CPU whose reset vector is 0x0000 begins to
fetch, the packed image from 0x8000, and every other byte 0x00. The vector is OPEN and outside the block: that it stands as
an argument, here 0x0000, is the model's form (log 16). -/
def Obligations.BootSequenceLoadsFirmwareAndProgram : Prop :=
  ∀ img : Image, img.present = true → AllBits img.chars → img.chars.length ≤ 0x8000 →
    ∃ t, execSeq Pseudo.boot.expand { State.reset with image := img } = .next t ∧
      t.phase = .run ∧ t.fwWritable = false ∧ t.romFault = false ∧ t.dmaState = .idle ∧ t.FirmwareAtVector 0x0000#16 ∧
      (∀ k, k < img.chars.length / 8 → (t.load (0x8000#16 + BitVec.ofNat 16 k)).toNat = packedByte img.chars k) ∧
      ∀ a : Addr, 5 < a.toNat → (a.toNat < 0x8000 ∨ 0x8000 + img.chars.length / 8 ≤ a.toNat) → t.load a = 0x00#8

/-! ### Bus arbiter and DMA engine (44_dma_arbiter.md) -/

/-- Stated, R171: an accepted DMA_CONFIG loads the transfer's registers, clears the error latch and requests the bus; BUS_BUSY
outside Idle, then the no-op of length 0, then DMA_OUT_OF_RANGE, write nothing. -/
def Obligations.DmaConfigLoadsTheTransfer : Prop :=
  ∀ (dir : AccessKind) (pending : Byte) (len : DmaLength) (start : Addr) (s : State),
    encode (.dmaConfig dir pending len start) = req48 0x3#4 (bitOfKind dir) pending len start ∧
    (s.dmaState ≠ .idle →
      exec (.dmaConfig dir pending len start) s = .next { s with response := some { status := .busBusy } }) ∧
    (s.dmaState = .idle → len = 0x0000#16 →
      exec (.dmaConfig dir pending len start) s = .next { s with response := some { status := .ok } }) ∧
    (s.dmaState = .idle → 1 ≤ len.toNat → 0xFFFF < start.toNat + len.toNat - 1 →
      exec (.dmaConfig dir pending len start) s = .next { s with
        response := some { status := .dmaOutOfRange, addr := start, count := len.setWidth 32 } }) ∧
    (s.dmaState = .idle → 1 ≤ len.toNat → start.toNat + len.toNat - 1 ≤ 0xFFFF →
      exec (.dmaConfig dir pending len start) s = .next { s with
        dmaStart := start, dmaLen := len, dmaDir := dir, dmaPending := pending,
        dmaErrValid := false, dmaErrAddr := 0x0000#16, dmaErrCause := 0x0#4, dmaState := .requested,
        response := some { status := .ok, addr := start, count := len.setWidth 32 } })

/-- Stated, R172 and R173: DMA_LOAD_PENDING writes the pending byte and DMA_READ_PENDING reads it, in every state, and neither
changes anything else. -/
def Obligations.PendingByteIsLoadedAndRead : Prop :=
  ∀ (v : Byte) (s : State),
    encode (.dmaLoadPending v) = req48 0x4#4 0#1 v 0#16 0#16 ∧
    encode .dmaReadPending = req48 0x5#4 0#1 0#8 0#16 0#16 ∧
    exec (.dmaLoadPending v) s = .next { s with dmaPending := v, response := some { status := .ok, data := v } } ∧
    exec .dmaReadPending s = .next { s with response := some { status := .ok, data := s.dmaPending } }

/-- Stated, R174 and R178: DMA_GRANT moves DmaRequested to DmaActive and DMA_ACK moves DmaComplete to Idle, and neither writes
anything else; in every other state both answer NO_EFFECT. -/
def Obligations.GrantAndAckMoveTheArbiter : Prop :=
  ∀ s : State,
    encode .dmaGrant = req48 0x6#4 0#1 0#8 0#16 0#16 ∧ encode .dmaAck = req48 0x8#4 0#1 0#8 0#16 0#16 ∧
    (s.dmaState = .requested →
      exec .dmaGrant s = .next { s with dmaState := .active, response := some { status := .ok } }) ∧
    (s.dmaState ≠ .requested → exec .dmaGrant s = .next { s with response := some { status := .noEffect } }) ∧
    (s.dmaState = .complete →
      exec .dmaAck s = .next { s with dmaState := .idle, response := some { status := .ok } }) ∧
    (s.dmaState ≠ .complete → exec .dmaAck s = .next { s with response := some { status := .noEffect } })

/-- Stated, R179: DMA_STATUS answers the DMA registers and the error latch, in every state, and writes nothing. -/
def Obligations.DmaStatusAnswersTheRegisters : Prop :=
  ∀ s : State,
    encode .dmaStatus = req48 0x9#4 0#1 0#8 0#16 0#16 ∧
    ∃ byte : Byte,
      exec .dmaStatus s = .next { s with
        response := some
          { status := .ok, data := byte, addr := s.dmaStart, count := s.dmaLen.setWidth 32, addr2 := s.dmaErrAddr,
            cause := s.dmaErrCause } } ∧
      byte.toNat = 8 * s.dmaErrValid.toNat + 4 * (bitOfKind s.dmaDir).toNat + s.dmaState.code.toNat

/-- Derived (44_dma_arbiter.md section 2): a Write-direction DMA_STEP stores the pending byte at `dma_start`, changes no other
byte, and advances; the last byte completes the transfer and clears its registers. -/
def Obligations.DmaStepWritesOneByte : Prop :=
  ∀ (s : State) (g : RegionId), s.mem.wf → s.dmaState = .active → s.dmaDir = .write →
    s.decodeAddr s.dmaStart .write = .ok s.dmaStart g →
    ∃ t, exec .dmaStep s = .next t ∧
      (s.dmaLen = 1#16 → t = { s with
        mem := t.mem, dmaState := .complete, dmaStart := 0x0000#16, dmaLen := 0x0000#16, dmaDir := .read,
        response := some { status := .ok, region := g, addr := s.dmaStart, data := s.dmaPending, count := 0#32 } }) ∧
      (s.dmaLen ≠ 1#16 → t = { s with
        mem := t.mem, dmaStart := s.dmaStart + 1#16, dmaLen := s.dmaLen - 1#16,
        response := some { status := .ok, region := g, addr := s.dmaStart, data := s.dmaPending,
                           count := (s.dmaLen - 1#16).setWidth 32 } }) ∧
      t.load s.dmaStart = s.dmaPending ∧ ∀ a, a ≠ s.dmaStart → t.load a = s.load a

/-- Derived (44_dma_arbiter.md section 2): a Read-direction DMA_STEP takes the byte at `dma_start` into the pending register,
changes no byte of memory, and advances; the last byte completes the transfer and clears its registers. -/
def Obligations.DmaStepReadsOneByte : Prop :=
  ∀ (s : State) (g : RegionId), s.dmaState = .active → s.dmaDir = .read →
    s.decodeAddr s.dmaStart .read = .ok s.dmaStart g →
    (s.dmaLen = 1#16 → exec .dmaStep s = .next { s with
      dmaPending := s.load s.dmaStart, dmaState := .complete, dmaStart := 0x0000#16, dmaLen := 0x0000#16, dmaDir := .read,
      response := some { status := .ok, region := g, addr := s.dmaStart, data := s.load s.dmaStart, count := 0#32 } }) ∧
    (s.dmaLen ≠ 1#16 → exec .dmaStep s = .next { s with
      dmaPending := s.load s.dmaStart, dmaStart := s.dmaStart + 1#16, dmaLen := s.dmaLen - 1#16,
      response := some { status := .ok, region := g, addr := s.dmaStart, data := s.load s.dmaStart,
                         count := (s.dmaLen - 1#16).setWidth 32 } })

/-- Stated, R177: a DMA_STEP whose decode fails moves no byte, clears the transfer's registers, keeps the pending byte, latches
the address and the cause, and returns to Idle. Outside DmaActive, by R175, DMA_STEP has no effect. -/
def Obligations.DmaStepAbortsOnADecodeFailure : Prop :=
  ∀ s : State, encode .dmaStep = req48 0x7#4 0#1 0#8 0#16 0#16 ∧
    (s.dmaState ≠ .active → exec .dmaStep s = .next { s with response := some { status := .noEffect } }) ∧
    ∀ f g, s.dmaState = .active → s.decodeAddr s.dmaStart s.dmaDir = .fail f g →
      exec .dmaStep s = .next { s with
        dmaState := .idle, dmaStart := 0x0000#16, dmaLen := 0x0000#16, dmaDir := .read,
        dmaErrValid := true, dmaErrAddr := s.dmaStart, dmaErrCause := f.status.code,
        response := some { status := .dmaAborted, region := g, addr := s.dmaStart, cause := f.status.code } }

/-- Stated, R170: every change of `dma_state` by a request is one of the listed transitions, every listed condition makes its
transition, a reset goes to Idle, and the DMA engine owns the bus exactly in DmaActive. -/
def Obligations.ArbiterMovesOnlyByTheListedTransitions : Prop :=
  (∀ (i : Instr) (s t : State), exec i s = .next t → t.dmaState ≠ s.dmaState → s.ListedTransition i t) ∧
  (∀ (dir : AccessKind) (pending : Byte) (len : DmaLength) (start : Addr) (s t : State),
    exec (.dmaConfig dir pending len start) s = .next t → s.dmaState = .idle → 1 ≤ len.toNat →
    start.toNat + len.toNat - 1 ≤ 0xFFFF → t.dmaState = .requested) ∧
  (∀ s t : State, exec .dmaGrant s = .next t → s.dmaState = .requested → t.dmaState = .active) ∧
  (∀ (s t : State) (g : RegionId), exec .dmaStep s = .next t → s.dmaState = .active →
    s.decodeAddr s.dmaStart s.dmaDir = .ok s.dmaStart g →
    t.dmaState = if s.dmaLen = 1#16 then .complete else .active) ∧
  (∀ (s t : State) (f : AccessFault) (g : RegionId), exec .dmaStep s = .next t → s.dmaState = .active →
    s.decodeAddr s.dmaStart s.dmaDir = .fail f g → t.dmaState = .idle) ∧
  (∀ s t : State, exec .dmaAck s = .next t → s.dmaState = .complete → t.dmaState = .idle) ∧
  (∀ s t : State, step s = .next t → s.NextIsReset → t.dmaState = .idle) ∧
  ∀ s : State, s.busOwner = if s.dmaState = .active then .dma else .cpu

/-- Stated, R180: no request but DMA_STEP ends an active transfer, and DMA_STEP ends it only by moving the last byte or by a
decode failure; DMA_CONFIG answers BUS_BUSY and DMA_ACK answers NO_EFFECT there; a step that ends it otherwise is a
reset. -/
def Obligations.NoRequestStopsAnActiveTransfer : Prop :=
  (∀ (i : Instr) (s t : State), s.dmaState = .active → exec i s = .next t → t.dmaState ≠ .active →
    i = .dmaStep ∧ ((s.dmaLen = 1#16 ∧ t.dmaState = .complete ∧ t.status? = some .ok) ∨
      (t.dmaState = .idle ∧ t.status? = some .dmaAborted ∧ ∃ f g, s.decodeAddr s.dmaStart s.dmaDir = .fail f g))) ∧
  (∀ (dir : AccessKind) (pending : Byte) (len : DmaLength) (start : Addr) (s : State), s.dmaState = .active →
    exec (.dmaConfig dir pending len start) s = .next { s with response := some { status := .busBusy } }) ∧
  (∀ s : State, s.dmaState = .active → exec .dmaAck s = .next { s with response := some { status := .noEffect } }) ∧
  ∀ s t : State, s.dmaState = .active → step s = .next t → t.dmaState ≠ .active → s.NextIs .dmaStep ∨ s.NextIsReset

/-- Derived (44_dma_arbiter.md section 3; the spec marks it as its own inference): from every state that meets the invariant,
at most `dma_len + 2` requests of DMA_GRANT, DMA_STEP and DMA_ACK return the arbiter to Idle. -/
def Obligations.ArbiterCanAlwaysReturnToIdle : Prop :=
  ∀ s : State, s.Inv → ∃ (is : List Instr) (t : State), is.length ≤ s.dmaLen.toNat + 2 ∧
    (∀ i ∈ is, i = .dmaGrant ∨ i = .dmaStep ∨ i = .dmaAck) ∧ execSeq is s = .next t ∧ t.dmaState = .idle

/-- Derived (44_dma_arbiter.md section 3, the source's property, which the spec marks as its own inference): a Write transfer
over writable bytes, stepped once for each byte with no DMA_LOAD_PENDING between, writes exactly its bytes, each with the
pending byte, and completes. -/
def Obligations.WriteTransferWritesExactlyItsBytes : Prop :=
  ∀ (n : Nat) (s : State), s.Inv → s.dmaState = .active → s.dmaDir = .write → s.dmaLen.toNat = n →
    (∀ k, k < n → ∃ g, s.decodeAddr (s.dmaStart + BitVec.ofNat 16 k) .write = .ok (s.dmaStart + BitVec.ofNat 16 k) g) →
    ∃ t, execSeq (List.replicate n .dmaStep) s = .next t ∧ t.status? = some .ok ∧
      t = { s with
        mem := t.mem, dmaState := .complete, dmaStart := 0x0000#16, dmaLen := 0x0000#16, dmaDir := .read,
        response := t.response } ∧
      (∀ k, k < n → t.load (s.dmaStart + BitVec.ofNat 16 k) = s.dmaPending) ∧
      ∀ a, (∀ k, k < n → a ≠ s.dmaStart + BitVec.ofNat 16 k) → t.load a = s.load a

/-- Derived (44_dma_arbiter.md section 3 and 70_reset_and_hazards.md section 3, inferences that the spec marks as its own): a
Write transfer over writable bytes, with a DMA_LOAD_PENDING before each step, writes exactly its bytes, each with the byte
loaded for it, and completes with the last of them in the pending register. -/
def Obligations.WriteTransferWritesTheLoadedBytes : Prop :=
  ∀ (vs : List Byte) (s : State), s.Inv → s.dmaState = .active → s.dmaDir = .write → s.dmaLen.toNat = vs.length →
    (∀ k, k < vs.length →
      ∃ g, s.decodeAddr (s.dmaStart + BitVec.ofNat 16 k) .write = .ok (s.dmaStart + BitVec.ofNat 16 k) g) →
    ∃ t, execSeq (vs.flatMap fun v => [.dmaLoadPending v, .dmaStep]) s = .next t ∧ t.status? = some .ok ∧
      t = { s with
        mem := t.mem, dmaState := .complete, dmaStart := 0x0000#16, dmaLen := 0x0000#16, dmaDir := .read,
        dmaPending := vs.getLastD s.dmaPending, response := t.response } ∧
      (∀ (k : Nat) (v : Byte), vs[k]? = some v → t.load (s.dmaStart + BitVec.ofNat 16 k) = v) ∧
      ∀ a, (∀ k, k < vs.length → a ≠ s.dmaStart + BitVec.ofNat 16 k) → t.load a = s.load a

/-- Derived (44_dma_arbiter.md section 3, the source's property, which the spec marks as its own inference): a Write transfer
that meets its first protected byte after `k` writable ones writes those, none after, latches the address with cause 0x2
and releases the bus. -/
def Obligations.WriteTransferAbortsAtTheFirstProtectedByte : Prop :=
  ∀ (k : Nat) (s : State) (g : RegionId), s.Inv → s.dmaState = .active → s.dmaDir = .write → k < s.dmaLen.toNat →
    (∀ j, j < k → ∃ h, s.decodeAddr (s.dmaStart + BitVec.ofNat 16 j) .write = .ok (s.dmaStart + BitVec.ofNat 16 j) h) →
    s.decodeAddr (s.dmaStart + BitVec.ofNat 16 k) .write = .fail .writeProtected g →
    ∃ t, execSeq (List.replicate (k + 1) .dmaStep) s = .next t ∧ t.busOwner = .cpu ∧
      t = { s with
        mem := t.mem, dmaState := .idle, dmaStart := 0x0000#16, dmaLen := 0x0000#16, dmaDir := .read,
        dmaErrValid := true, dmaErrAddr := s.dmaStart + BitVec.ofNat 16 k, dmaErrCause := 0x2#4,
        response := some { status := .dmaAborted, region := g, addr := s.dmaStart + BitVec.ofNat 16 k, cause := 0x2#4 } } ∧
      (∀ j, j < k → t.load (s.dmaStart + BitVec.ofNat 16 j) = s.dmaPending) ∧
      ∀ a, (∀ j, j < k → a ≠ s.dmaStart + BitVec.ofNat 16 j) → t.load a = s.load a

/-- Derived (44_dma_arbiter.md section 2, and 70_reset_and_hazards.md section 3, an inference that the spec marks as its own): a
Read transfer over mapped bytes, stepped once for
each byte with no DMA_READ_PENDING between, completes with its last byte in the pending register and changes no memory. -/
def Obligations.ReadTransferKeepsItsLastByte : Prop :=
  ∀ (n : Nat) (s : State), s.Inv → s.dmaState = .active → s.dmaDir = .read → s.dmaLen.toNat = n →
    (∀ k, k < n → ∃ g, s.decodeAddr (s.dmaStart + BitVec.ofNat 16 k) .read = .ok (s.dmaStart + BitVec.ofNat 16 k) g) →
    ∃ t, execSeq (List.replicate n .dmaStep) s = .next t ∧ t.status? = some .ok ∧
      t = { s with
        dmaPending := s.load (s.dmaStart + BitVec.ofNat 16 (n - 1)), dmaState := .complete, dmaStart := 0x0000#16,
        dmaLen := 0x0000#16, dmaDir := .read, response := t.response }

/-- Derived (44_dma_arbiter.md section 3): DMA accesses are decoded exactly like CPU accesses. A step aborts with a cause
exactly when the CPU's access of the same kind to the same byte, in the same state with the bus with the CPU, answers the
status of that cause. -/
def Obligations.DmaIsDecodedLikeTheCpu : Prop :=
  ∀ (s t u : State) (f : AccessFault), s.dmaState = .active → exec .dmaStep s = .next t →
    exec (if s.dmaDir = .write then .write s.dmaPending s.dmaStart else .read s.dmaStart) { s with dmaState := .idle } =
      .next u →
    ((t.status? = some .dmaAborted ∧ t.dmaErrCause = f.cause) ↔ u.status? = some f.status)

/-- Stated, R37: the level outputs are functions of `dma_state`: `dma_busy` is 1 exactly in DmaActive, `dma_done` exactly in
DmaComplete. -/
def Obligations.LevelOutputsFollowTheArbiter : Prop :=
  ∀ s : State, (s.dmaBusy = true ↔ s.dmaState = .active) ∧ (s.dmaDone = true ↔ s.dmaState = .complete)

/-- Derived (20_memory.md section 5, an inference of the spec; 00_scope.md section 5): the bus changes hands only by a whole
request of the bus arbiter, to the DMA engine, or of the DMA engine, back to the CPU, or by a reset. -/
def Obligations.BusChangesHandsByArbiterAndEngineOnly : Prop :=
  ∀ s t : State, step s = .next t → s.OwnerChanges t →
    (∃ i, s.NextIs i ∧ i.issuer = .busArbiter ∧ s.busOwner = .cpu ∧ t.busOwner = .dma) ∨
    (∃ i, s.NextIs i ∧ i.issuer = .dmaEngine ∧ s.busOwner = .dma ∧ t.busOwner = .cpu) ∨
    (s.NextIsReset ∧ s.busOwner = .dma ∧ t.busOwner = .cpu)

/-! ### Memory access and statuses over all requests (20_memory.md, 60_exceptions.md) -/

/-- Stated, R86: the code of each status; no status has a code above 0xA. -/
def Obligations.StatusCodes : Prop :=
  Status.code .ok = 0x0#4 ∧ Status.code .unmappedAddress = 0x1#4 ∧ Status.code .writeProtected = 0x2#4 ∧
  Status.code .busBusy = 0x3#4 ∧ Status.code .dmaOutOfRange = 0x4#4 ∧ Status.code .dmaAborted = 0x5#4 ∧
  Status.code .romNotFound = 0x6#4 ∧ Status.code .romTooLarge = 0x7#4 ∧ Status.code .romMalformedBit = 0x8#4 ∧
  Status.code .illegalRequest = 0x9#4 ∧ Status.code .noEffect = 0xA#4 ∧
  ∀ st : Status, (Status.code st).toNat ≤ 0xA

/-- Derived (20_memory.md section 1): the requests listed there as not accessing `mem` neither change it nor depend on it: with
other contents of memory, everything else they leave is the same. -/
def Obligations.ListedRequestsDoNotAccessMemory : Prop :=
  ∀ (i : Instr) (s : State) (m : Memory), Instr.AvoidsMemory i →
    ∃ t, exec i s = .next t ∧ t.mem = s.mem ∧ exec i { s with mem := m } = .next { t with mem := m }

/-- Derived (20_memory.md section 5, an inference of the spec): while DmaActive no step but a DMA_STEP or a reset changes a
byte of memory. -/
def Obligations.OnlyDmaStepTouchesMemoryWhileActive : Prop :=
  ∀ s t : State, s.dmaState = .active → step s = .next t → t.mem ≠ s.mem → s.NextIs .dmaStep ∨ s.NextIsReset

/-- Derived (60_exceptions.md section 1; the spec marks it as its own inference): a non-OK response changes no state, but for
the abort of a DMA_STEP, with the cause of its failed decode, and the three errors of a ROM_LOAD. A malformed character
changes no byte but those of the complete groups before it. -/
def Obligations.NonOkResponseChangesNothingElse : Prop :=
  ∀ (i : Instr) (s t : State) (r : Response), exec i s = .next t → t.response = some r → r.status ≠ .ok →
    s.SameButResponse t ∨
    (r.status = .dmaAborted ∧ i = .dmaStep ∧ s.dmaState = .active ∧
      ∃ f g, s.decodeAddr s.dmaStart s.dmaDir = .fail f g ∧ r.cause = AccessFault.cause f ∧
        t = { s with
          dmaState := .idle, dmaStart := 0x0000#16, dmaLen := 0x0000#16, dmaDir := .read, dmaErrValid := true,
          dmaErrAddr := s.dmaStart, dmaErrCause := AccessFault.cause f, response := some r }) ∨
    ((r.status = .romNotFound ∨ r.status = .romTooLarge) ∧ (∃ idx, i = .romLoad idx) ∧
      t = { s with romFault := true, response := some r }) ∨
    (r.status = .romMalformedBit ∧
      ∃ idx q, i = .romLoad idx ∧ s.table[idx.toNat]? = some q ∧
        t = { s with mem := t.mem, romFault := true, response := some r } ∧
        ∀ a, (∀ k, k < r.count.toNat / 8 → a ≠ q.base + BitVec.ofNat 16 k) → t.load a = s.load a)

/-- Derived (60_exceptions.md section 1): an event at the port is answered with ILLEGAL_REQUEST exactly for an illegal word, a REGION_QUERY or ROM_LOAD
with an index beyond the table, ROM_LOAD, FW_INSTALL or START in Run, FW_INSTALL once installed, and START after a failed
ROM_LOAD; and no state changes then. That the inbox moves on and that the image port shows the request's image are the
model's choices (log 1, log 5). -/
def Obligations.IllegalRequestExactlyInTheListedCases : Prop :=
  ∀ (s t : State) (w : RequestWord) (image : Image) (rest : List PortEvent),
    s.inbox = .request w image :: rest → step s = .next t →
    (t.status? = some .illegalRequest ↔
      IllegalWord w ∨
      (∃ idx, (decode w = .ok (.regionQuery idx) ∨ decode w = .ok (.romLoad idx)) ∧ s.table.length ≤ idx.toNat) ∨
      (s.phase = .run ∧
        ((∃ idx, decode w = .ok (.romLoad idx)) ∨ decode w = .ok .fwInstall ∨ decode w = .ok .start)) ∨
      (decode w = .ok .fwInstall ∧ s.fwWritable = false) ∨
      (decode w = .ok .start ∧ s.romFault = true)) ∧
    (t.status? = some .illegalRequest →
      t = { s with inbox := rest, image := image, response := some { status := .illegalRequest } })

/-- Stated, R212: NO_EFFECT is answered exactly by DMA_GRANT outside DmaRequested, DMA_STEP outside DmaActive and DMA_ACK outside
DmaComplete, and no state changes then. -/
def Obligations.NoEffectExactlyForIdleStrobes : Prop :=
  ∀ (i : Instr) (s t : State), exec i s = .next t →
    (t.status? = some .noEffect ↔
      (i = .dmaGrant ∧ s.dmaState ≠ .requested) ∨ (i = .dmaStep ∧ s.dmaState ≠ .active) ∨
      (i = .dmaAck ∧ s.dmaState ≠ .complete)) ∧
    (t.status? = some .noEffect → t = { s with response := some { status := .noEffect } })

/-- Stated, R213: BUS_BUSY is answered only in its two cases, with no state change; READ, WRITE and DMA_CONFIG answer it in
every such state, and ROM_LOAD and FW_INSTALL whenever their earlier checks let them through. -/
def Obligations.BusBusyExactlyWhileTheBusOrTheDmaIsTaken : Prop :=
  ∀ (i : Instr) (s t : State), exec i s = .next t →
    (t.status? = some .busBusy →
      s.SameButResponse t ∧
      ((s.dmaState = .active ∧ ((∃ a, i = .read a) ∨ (∃ v a, i = .write v a) ∨ (∃ idx, i = .romLoad idx) ∨ i = .fwInstall)) ∨
       (s.dmaState ≠ .idle ∧ ∃ dir pending len start, i = .dmaConfig dir pending len start))) ∧
    (s.dmaState = .active → ((∃ a, i = .read a) ∨ ∃ v a, i = .write v a) → t.status? = some .busBusy) ∧
    (s.dmaState ≠ .idle → (∃ dir pending len start, i = .dmaConfig dir pending len start) → t.status? = some .busBusy) ∧
    (s.dmaState = .active → s.phase = .boot → (∃ idx, i = .romLoad idx ∧ idx.toNat < s.table.length) →
      t.status? = some .busBusy) ∧
    (s.dmaState = .active → s.phase = .boot → s.fwWritable = true → i = .fwInstall → t.status? = some .busBusy)
end

