-- ==== Sys2Proof/Laws/AddressDecoder.lean ====
section
/-! SUPPORT. What the address decoder (40_decoder.md R110) can answer. -/

namespace Sys2Proof.Machine

theorem writableBy_constant (fw : Bool) {r : Region} {w : Bool} (h : r.policy = .constant w) : writableBy fw r = w := by
  simp [writableBy, h]

theorem writableBy_fwRegister (fw : Bool) {r : Region} (h : r.policy = .fwRegister) : writableBy fw r = fw := by
  simp [writableBy, h]

/-- Everything the decoder can answer: no entry holds the address; or the first one that holds it decides, by its policy for
a write. -/
theorem decodeFrom_cases (fw : Bool) (a : Addr) (kind : AccessKind) (i : Nat) (t : RegionTable) :
    ((∀ r ∈ t, r.holds a = false) ∧ decodeFrom fw a kind i t = .fail .unmappedAddress noRegion) ∨
    ∃ j r, t[j]? = some r ∧ r.holds a = true ∧ (∀ q ∈ t.take j, q.holds a = false) ∧
      ((kind = .write ∧ writableBy fw r = false ∧
          decodeFrom fw a kind i t = .fail .writeProtected (regionId (i + j))) ∨
        (¬(kind = .write ∧ writableBy fw r = false) ∧
          decodeFrom fw a kind i t = .ok a (regionId (i + j)))) := by
  induction t generalizing i with
  | nil => simp [decodeFrom]
  | cons r t ih =>
    by_cases hr : r.holds a = true
    · refine Or.inr ⟨0, r, rfl, hr, by simp, ?_⟩
      by_cases hw : kind = .write ∧ writableBy fw r = false
      · exact Or.inl ⟨hw.1, hw.2, by simp [decodeFrom, hr, hw]⟩
      · exact Or.inr ⟨hw, by simp [decodeFrom, hr, hw]⟩
    · have hr' : r.holds a = false := by simpa using hr
      have hd : decodeFrom fw a kind i (r :: t) = decodeFrom fw a kind (i + 1) t := by simp [decodeFrom, hr']
      rcases ih (i + 1) with ⟨hn, he⟩ | ⟨j, q, hj, hq, hpre, hres⟩
      · exact Or.inl ⟨by simpa [hr'] using hn, by rw [hd, he]⟩
      · refine Or.inr ⟨j + 1, q, by simpa using hj, hq, by simpa [hr'] using hpre, ?_⟩
        rw [hd, show i + (j + 1) = i + 1 + j by omega]
        exact hres

/-- A successful decode gives the address itself as the offset (R54). -/
theorem State.decodeAddr_offset {s : State} {a o : Addr} {kind : AccessKind} {g : RegionId}
    (h : s.decodeAddr a kind = .ok o g) : o = a := by
  rcases decodeFrom_cases s.fwWritable a kind 0 s.table with ⟨_, he⟩ | ⟨j, r, _, _, _, ⟨_, _, he⟩ | ⟨_, he⟩⟩ <;>
    simp only [State.decodeAddr] at h <;> rw [he] at h <;> simp_all

/-- A decode for a read fails only with UNMAPPED_ADDRESS (R115). -/
theorem State.decodeAddr_read_fault {s : State} {a : Addr} {f : AccessFault} {g : RegionId}
    (h : s.decodeAddr a .read = .fail f g) : f = .unmappedAddress ∧ g = noRegion := by
  rcases decodeFrom_cases s.fwWritable a .read 0 s.table with ⟨_, he⟩ | ⟨j, r, _, _, _, ⟨hk, _, _⟩ | ⟨_, he⟩⟩
  · simp only [State.decodeAddr] at h; rw [he] at h; simp_all
  · simp at hk
  · simp only [State.decodeAddr] at h; rw [he] at h; simp_all

/-- The decoder reads the region table and `fw_writable`, nothing else (R110). -/
theorem State.decodeAddr_congr {s t : State} (hf : t.fwWritable = s.fwWritable) (ht : t.table = s.table)
    (a : Addr) (kind : AccessKind) : t.decodeAddr a kind = s.decodeAddr a kind := by
  simp [State.decodeAddr, hf, ht]

end Sys2Proof.Machine
end

