-- ==== Sys2Proof/Laws/Encoding.lean ====
section
/-! SUPPORT. The fields of a request word (30_encoding.md R81): splitting and joining are inverse to each other. -/

namespace Sys2Proof

@[simp] theorem splitWord_joinWord (f : Req48) : splitWord (joinWord f) = f := by
  obtain ⟨op, d, rsv, data, len, addr⟩ := f
  simp only [splitWord, joinWord, Req48.mk.injEq]
  refine ⟨?_, ?_, ?_, ?_, ?_, ?_⟩ <;> ext i hi <;>
    simp only [BitVec.getElem_extractLsb', BitVec.getLsbD_append] <;> grind

@[simp] theorem joinWord_splitWord (w : RequestWord) : joinWord (splitWord w) = w := by
  ext i hi
  simp only [splitWord, joinWord]
  grind

@[simp] theorem kindOfBit_bitOfKind (k : AccessKind) : kindOfBit (bitOfKind k) = k := by cases k <;> rfl

@[simp] theorem bitOfKind_kindOfBit (d : BitVec 1) : bitOfKind (kindOfBit d) = d := by
  revert d; decide

/-- `ifUnusedZero` answers a request only when the check holds, and then the request it was given. -/
theorem ifUnusedZero_eq_ok {b : Bool} {i j : Instr} : ifUnusedZero b i = .ok j ↔ b = true ∧ i = j := by
  cases b <;> simp [ifUnusedZero]

/-- `ifUnusedZero` rejects a request exactly when the check fails. -/
theorem exists_ifUnusedZero_eq_error {b : Bool} {i : Instr} : (∃ e, ifUnusedZero b i = .error e) ↔ b = false := by
  cases b <;> simp [ifUnusedZero]

/-- The sixteen operation codes (R82), for a case split. -/
theorem opcode_cases : ∀ op : BitVec 4,
    op = 0x0#4 ∨ op = 0x1#4 ∨ op = 0x2#4 ∨ op = 0x3#4 ∨ op = 0x4#4 ∨ op = 0x5#4 ∨ op = 0x6#4 ∨ op = 0x7#4 ∨
    op = 0x8#4 ∨ op = 0x9#4 ∨ op = 0xA#4 ∨ op = 0xB#4 ∨ op = 0xC#4 ∨ op = 0xD#4 ∨ op = 0xE#4 ∨ op = 0xF#4 := by
  decide

/-- The decoder accepts a word only through its fields. -/
theorem decode_joinWord (f : Req48) : decode (joinWord f) = decodeFields f := by simp [decode]

end Sys2Proof
end

