-- ==== Sys2Proof/Laws/Memory.lean ====
section
/-! SUPPORT. The laws of the backing store: a read after a write (20_memory.md R52, R53, R60), and every write keeps the
canonical form. -/

namespace Sys2Proof.Machine

theorem Memory.nil_wf : Memory.wf [] := by simp [Memory.wf]

@[simp] theorem Memory.read_nil (a : Nat) : Memory.read [] a = 0x00#8 := rfl

theorem Memory.wf_tail {c : Host.Cell} {m : Memory} (h : Memory.wf (c :: m)) : Memory.wf m := by
  simp only [Memory.wf, List.pairwise_cons, List.mem_cons, forall_eq_or_imp] at h ⊢
  exact ⟨h.1.2, h.2.2⟩

/-- An address below or beside every listed one reads as unlisted. -/
theorem Memory.read_of_forall_ne {m : Memory} {a : Nat} (h : ∀ c ∈ m, c.1 ≠ a) : m.read a = 0x00#8 := by
  induction m with
  | nil => rfl
  | cons c m ih =>
    obtain ⟨b, v⟩ := c
    simp only [List.mem_cons, forall_eq_or_imp] at h
    simp [Memory.read, Ne.symm h.1, ih h.2]

theorem Memory.read_of_below {m : Memory} {a : Nat} (h : ∀ c ∈ m, a < c.1) : m.read a = 0x00#8 :=
  Memory.read_of_forall_ne fun c hc => Nat.ne_of_gt (h c hc)

/-- In front of addresses that are all above it, `cons` sets the byte at its address. -/
theorem Memory.read_cons_same {m : Memory} {a : Nat} {v : Byte} (h : ∀ c ∈ m, a < c.1) :
    (Memory.cons a v m).read a = v := by
  unfold Memory.cons
  split
  · rename_i hv; rw [Memory.read_of_below h, hv, unlistedByte]
  · simp [Memory.read]

theorem Memory.read_cons_other {m : Memory} {a b : Nat} {v : Byte} (h : b ≠ a) :
    (Memory.cons a v m).read b = m.read b := by
  unfold Memory.cons
  split
  · rfl
  · simp [Memory.read, h]

/-- A read of the address just written gives the byte written. -/
theorem Memory.read_write_same {m : Memory} (h : m.wf) (a : Nat) (v : Byte) : (m.write a v).read a = v := by
  induction m with
  | nil => exact Memory.read_cons_same (by simp)
  | cons c m ih =>
    obtain ⟨b, w⟩ := c
    have above : ∀ c ∈ m, b < c.1 := (List.pairwise_cons.mp h.1).1
    unfold Memory.write
    split
    · rename_i hab
      refine Memory.read_cons_same ?_
      simp only [List.mem_cons, forall_eq_or_imp]
      exact ⟨hab, fun c hc => Nat.lt_trans hab (above c hc)⟩
    · split
      · rename_i hab; subst hab; exact Memory.read_cons_same above
      · rename_i hne
        rw [Memory.read, if_neg hne]
        exact ih (Memory.wf_tail h)

/-- A write leaves every other address alone. -/
theorem Memory.read_write_other (m : Memory) {a b : Nat} (h : b ≠ a) (v : Byte) :
    (m.write a v).read b = m.read b := by
  induction m with
  | nil => exact Memory.read_cons_other h
  | cons c m ih =>
    obtain ⟨x, w⟩ := c
    unfold Memory.write
    split
    · exact Memory.read_cons_other h
    · split
      · rename_i hax; subst hax; rw [Memory.read_cons_other h]; simp [Memory.read, h]
      · simp [Memory.read, ih]

theorem Memory.cons_wf {m : Memory} {a : Nat} {v : Byte} (ha : a < Config.memSize) (above : ∀ c ∈ m, a < c.1)
    (h : m.wf) : (Memory.cons a v m).wf := by
  unfold Memory.cons
  split
  · exact h
  · rename_i hv
    simp only [Memory.wf, List.pairwise_cons, List.mem_cons, forall_eq_or_imp]
    exact ⟨⟨above, h.1⟩, ⟨ha, hv⟩, h.2⟩

theorem Memory.mem_cons {m : Memory} {a : Nat} {v : Byte} {c : Host.Cell} (h : c ∈ Memory.cons a v m) :
    c ∈ m ∨ c.1 = a := by
  unfold Memory.cons at h
  split at h
  · exact Or.inl h
  · rcases List.mem_cons.mp h with rfl | h
    · exact Or.inr rfl
    · exact Or.inl h

/-- Every cell of a written memory is a cell of the old one or stands at the written address. -/
theorem Memory.mem_write {m : Memory} {a : Nat} {v : Byte} {c : Host.Cell} (h : c ∈ m.write a v) :
    c ∈ m ∨ c.1 = a := by
  induction m with
  | nil => exact Memory.mem_cons h
  | cons d m ih =>
    obtain ⟨b, w⟩ := d
    unfold Memory.write at h
    split at h
    · exact Memory.mem_cons h
    · split at h
      · exact (Memory.mem_cons h).imp (List.mem_cons_of_mem _) id
      · rcases List.mem_cons.mp h with rfl | h
        · exact Or.inl List.mem_cons_self
        · exact (ih h).imp (List.mem_cons_of_mem _) id

/-- A write keeps the canonical form. -/
theorem Memory.write_wf {m : Memory} (h : m.wf) {a : Nat} (ha : a < Config.memSize) (v : Byte) :
    (m.write a v).wf := by
  induction m with
  | nil => exact Memory.cons_wf ha (by simp) h
  | cons c m ih =>
    obtain ⟨b, w⟩ := c
    have tail := Memory.wf_tail h
    have above : ∀ c ∈ m, b < c.1 := (List.pairwise_cons.mp h.1).1
    unfold Memory.write
    split
    · rename_i hab
      refine Memory.cons_wf ha ?_ h
      simp only [List.mem_cons, forall_eq_or_imp]
      exact ⟨hab, fun c hc => Nat.lt_trans hab (above c hc)⟩
    · split
      · rename_i hab; subst hab; exact Memory.cons_wf ha above tail
      · rename_i hlt hne
        have ihw := ih tail
        simp only [Memory.wf, List.pairwise_cons, List.mem_cons, forall_eq_or_imp]
        refine ⟨⟨fun c hc => ?_, ihw.1⟩, h.2 _ List.mem_cons_self, ihw.2⟩
        rcases Memory.mem_write hc with hm | rfl
        · exact above c hm
        · omega

theorem Config.addr_lt_memSize (a : Addr) : a.toNat < Config.memSize := a.isLt

/-! ### The primitives of R52 and R53 -/

theorem State.load_store_same {s : State} (h : s.mem.wf) (a : Addr) (v : Byte) : (s.store a v).load a = v :=
  Memory.read_write_same h a.toNat v

theorem State.load_store_other (s : State) {a b : Addr} (h : b ≠ a) (v : Byte) : (s.store a v).load b = s.load b :=
  Memory.read_write_other s.mem (fun e => h (BitVec.eq_of_toNat_eq e)) v

theorem State.store_wf {s : State} (h : s.mem.wf) (a : Addr) (v : Byte) : (s.store a v).mem.wf :=
  Memory.write_wf h (Config.addr_lt_memSize a) v

end Sys2Proof.Machine
end

