-- ==== Sys2Proof/Laws/Formatter.lean ====
section
/-! SUPPORT. What the ROM formatter's loop (42_rom_formatter.md R141) and the firmware's stores (43_firmware.md R161) can
change: the backing store, and nothing else. -/

namespace Sys2Proof.Machine

/-- `img_len` is the number of characters: none is lost in its 32 bits. -/
@[simp] theorem Image.toNat_len (img : Image) : img.len.toNat = img.chars.length := Nat.mod_eq_of_lt img.fits

/-- The number of complete groups, as ROM_LOAD reports it. -/
theorem Image.len_div_eight (img : Image) : img.len / 8#32 = BitVec.ofNat 32 (img.chars.length / 8) := by
  apply BitVec.eq_of_toNat_eq
  have := img.fits
  simp only [BitVec.toNat_udiv, Image.toNat_len, BitVec.toNat_ofNat]
  rw [Nat.mod_eq_of_lt (by omega : img.chars.length / 8 < 2 ^ 32)]

/-- The number of characters dropped, as ROM_LOAD reports it. -/
theorem Image.len_mod_eight (img : Image) : (img.len % 8#32).setWidth 8 = BitVec.ofNat 8 (img.chars.length % 8) := by
  apply BitVec.eq_of_toNat_eq
  simp only [BitVec.toNat_setWidth, BitVec.toNat_umod, Image.toNat_len, BitVec.toNat_ofNat]

/-- The formatter's loop changes the backing store only. -/
theorem formatChars_frame (base : Addr) (cs : List Byte) (i : Nat) (acc : Byte) (s : State) :
    (formatChars base cs i acc s).1 = { s with mem := (formatChars base cs i acc s).1.mem } := by
  induction cs generalizing i acc s with
  | nil => rfl
  | cons c cs ih =>
    unfold formatChars
    split
    · split
      · exact ih _ _ (s.store _ _)
      · exact ih _ _ s
    · rfl

/-- The formatter's loop keeps the canonical form. -/
theorem formatChars_wf (base : Addr) (cs : List Byte) (i : Nat) (acc : Byte) {s : State} (h : s.mem.wf) :
    (formatChars base cs i acc s).1.mem.wf := by
  induction cs generalizing i acc s with
  | nil => exact h
  | cons c cs ih =>
    unfold formatChars
    split
    · split
      · exact ih _ _ (State.store_wf h _ _)
      · exact ih _ _ h
    · exact h

/-- The malformed character that the loop reports, if it reports one, is one of its characters, and is neither '0' nor '1'. -/
theorem formatChars_bad {base : Addr} {cs : List Byte} {i : Nat} {acc : Byte} {s t : State} {bad : MalformedBit}
    (h : formatChars base cs i acc s = (t, some bad)) : bad.char ∈ cs ∧ isBitChar bad.char = false := by
  induction cs generalizing i acc s with
  | nil => simp [formatChars] at h
  | cons c cs ih =>
    unfold formatChars at h
    split at h
    · split at h
      · exact (ih h).imp (List.mem_cons_of_mem _) id
      · exact (ih h).imp (List.mem_cons_of_mem _) id
    · rename_i hc
      obtain ⟨-, rfl⟩ := by simpa using h
      exact ⟨List.mem_cons_self, by simpa using hc⟩

/-- An address that no output byte from character `i` on has reads as before. -/
theorem formatChars_load_other (base : Addr) (cs : List Byte) (i : Nat) (acc : Byte) (s : State) {a : Addr}
    (h : ∀ j, i ≤ j → j < i + cs.length → j % 8 = 7 → a ≠ romByteAddr base j) :
    (formatChars base cs i acc s).1.load a = s.load a := by
  induction cs generalizing i acc s with
  | nil => rfl
  | cons c cs ih =>
    have hnext : ∀ j, i + 1 ≤ j → j < i + 1 + cs.length → j % 8 = 7 → a ≠ romByteAddr base j :=
      fun j h1 h2 h3 => h j (by omega) (by simp only [List.length_cons]; omega) h3
    unfold formatChars
    split
    · split
      · rename_i h7
        rw [ih _ _ _ hnext]
        exact State.load_store_other s (h i (by omega) (by simp) h7) _
      · exact ih _ _ _ hnext
    · rfl

/-- Where the loop ends at a malformed character: its offset lies in the part the loop ran over, and an address that no complete
group before it has reads as before. -/
theorem formatChars_stopped {base : Addr} {cs : List Byte} {i : Nat} {acc : Byte} {s t : State} {bad : MalformedBit}
    (h : formatChars base cs i acc s = (t, some bad)) :
    i ≤ bad.offset ∧ bad.offset < i + cs.length ∧
    ∀ a, (∀ j, i ≤ j → j < bad.offset → j % 8 = 7 → a ≠ romByteAddr base j) → t.load a = s.load a := by
  induction cs generalizing i acc s with
  | nil => simp [formatChars] at h
  | cons c cs ih =>
    unfold formatChars at h
    split at h
    · split at h
      · rename_i h7
        obtain ⟨h1, h2, h3⟩ := ih h
        refine ⟨by omega, by simp only [List.length_cons]; omega, fun a ha => ?_⟩
        rw [h3 a fun j hj => ha j (by omega)]
        exact State.load_store_other s (ha i (by omega) (by omega) h7) _
      · obtain ⟨h1, h2, h3⟩ := ih h
        exact ⟨by omega, by simp only [List.length_cons]; omega, fun a ha => h3 a fun j hj => ha j (by omega)⟩
    · obtain ⟨rfl, rfl⟩ := by simpa using h
      exact ⟨Nat.le_refl _, by simp, fun _ _ => rfl⟩

/-- The stores of consecutive bytes change the backing store only. -/
theorem storeBytes_frame (a : Addr) (vs : List Byte) (s : State) :
    storeBytes a vs s = { s with mem := (storeBytes a vs s).mem } := by
  induction vs generalizing a s with
  | nil => rfl
  | cons v vs ih => exact ih (a + 1#16) (s.store a v)

/-- An address that none of the consecutive bytes has reads as before. -/
theorem storeBytes_load_other (a : Addr) (vs : List Byte) (s : State) {b : Addr}
    (h : ∀ j, j < vs.length → b ≠ a + BitVec.ofNat 16 j) : (storeBytes a vs s).load b = s.load b := by
  induction vs generalizing a s with
  | nil => rfl
  | cons v vs ih =>
    refine (ih (a + 1#16) (s.store a v) fun j hj e => h (j + 1) (by simpa using hj) ?_).trans
      (State.load_store_other s (by simpa using h 0 (by simp)) v)
    rw [e, BitVec.add_assoc, ← BitVec.ofNat_add, Nat.add_comm]

theorem storeBytes_wf (a : Addr) (vs : List Byte) {s : State} (h : s.mem.wf) : (storeBytes a vs s).mem.wf := by
  induction vs generalizing a s with
  | nil => exact h
  | cons v vs ih => exact ih _ (State.store_wf h _ _)

end Sys2Proof.Machine
end

