-- ==== Sys2Proof/Laws/PerInstr.lean ====
section
/-! SUPPORT. The family `OpcodeField`: the word of every request carries its operation code in bits 47 to 44 and 0 in its
reserved bits 42 to 40 (30_encoding.md R81, R82). -/

namespace Sys2Proof.Laws.OpcodeField

/-- The encoded word's operation code is the request's, and its reserved bits are 0. -/
def Statement (i : Instr) : Prop :=
  (encode i).extractLsb' 44 4 = opcode i ∧ (encode i).extractLsb' 40 3 = 0#3

/-- The two fields, read from the fields that were joined. -/
theorem of_fields {i : Instr} (hop : (encodeFields i).op = opcode i) (hrsv : (encodeFields i).rsv = 0#3) :
    Statement i := by
  have h := splitWord_joinWord (encodeFields i)
  exact ⟨(congrArg Req48.op h).trans hop, (congrArg Req48.rsv h).trans hrsv⟩

theorem resolve (kind : AccessKind) (addr : Addr) : Statement (.resolve kind addr) := of_fields rfl rfl
theorem read (addr : Addr) : Statement (.read addr) := of_fields rfl rfl
theorem write (data : Byte) (addr : Addr) : Statement (.write data addr) := of_fields rfl rfl
theorem dmaConfig (dir : AccessKind) (pending : Byte) (len : DmaLength) (start : Addr) :
    Statement (.dmaConfig dir pending len start) := of_fields rfl rfl
theorem dmaLoadPending (data : Byte) : Statement (.dmaLoadPending data) := of_fields rfl rfl
theorem dmaReadPending : Statement .dmaReadPending := of_fields rfl rfl
theorem dmaGrant : Statement .dmaGrant := of_fields rfl rfl
theorem dmaStep : Statement .dmaStep := of_fields rfl rfl
theorem dmaAck : Statement .dmaAck := of_fields rfl rfl
theorem dmaStatus : Statement .dmaStatus := of_fields rfl rfl
theorem romLoad (region : Byte) : Statement (.romLoad region) := of_fields rfl rfl
theorem fwInstall : Statement .fwInstall := of_fields rfl rfl
theorem start : Statement .start := of_fields rfl rfl
theorem regionQuery (region : Byte) : Statement (.regionQuery region) := of_fields rfl rfl

end Sys2Proof.Laws.OpcodeField
end

