-- ==== Sys2Proof/Laws/State.lean ====
section
/-! SUPPORT. Each field of each named update of the state: what the update sets, and what it leaves. -/

namespace Sys2Proof.Machine

variable (s : State)

/-! ### `State.answer` -/

@[simp] theorem State.answer_mem (r : Response) :
    (s.answer r).mem = s.mem := rfl
@[simp] theorem State.answer_fwWritable (r : Response) :
    (s.answer r).fwWritable = s.fwWritable := rfl
@[simp] theorem State.answer_phase (r : Response) :
    (s.answer r).phase = s.phase := rfl
@[simp] theorem State.answer_romFault (r : Response) :
    (s.answer r).romFault = s.romFault := rfl
@[simp] theorem State.answer_dmaState (r : Response) :
    (s.answer r).dmaState = s.dmaState := rfl
@[simp] theorem State.answer_dmaStart (r : Response) :
    (s.answer r).dmaStart = s.dmaStart := rfl
@[simp] theorem State.answer_dmaLen (r : Response) :
    (s.answer r).dmaLen = s.dmaLen := rfl
@[simp] theorem State.answer_dmaDir (r : Response) :
    (s.answer r).dmaDir = s.dmaDir := rfl
@[simp] theorem State.answer_dmaPending (r : Response) :
    (s.answer r).dmaPending = s.dmaPending := rfl
@[simp] theorem State.answer_dmaErrValid (r : Response) :
    (s.answer r).dmaErrValid = s.dmaErrValid := rfl
@[simp] theorem State.answer_dmaErrAddr (r : Response) :
    (s.answer r).dmaErrAddr = s.dmaErrAddr := rfl
@[simp] theorem State.answer_dmaErrCause (r : Response) :
    (s.answer r).dmaErrCause = s.dmaErrCause := rfl
@[simp] theorem State.answer_table (r : Response) :
    (s.answer r).table = s.table := rfl
@[simp] theorem State.answer_image (r : Response) :
    (s.answer r).image = s.image := rfl
@[simp] theorem State.answer_response (r : Response) :
    (s.answer r).response = some r := rfl
@[simp] theorem State.answer_inbox (r : Response) :
    (s.answer r).inbox = s.inbox := rfl

/-! ### `State.store` -/

@[simp] theorem State.store_mem (a : Addr) (v : Byte) :
    (s.store a v).mem = s.mem.write a.toNat v := rfl
@[simp] theorem State.store_fwWritable (a : Addr) (v : Byte) :
    (s.store a v).fwWritable = s.fwWritable := rfl
@[simp] theorem State.store_phase (a : Addr) (v : Byte) :
    (s.store a v).phase = s.phase := rfl
@[simp] theorem State.store_romFault (a : Addr) (v : Byte) :
    (s.store a v).romFault = s.romFault := rfl
@[simp] theorem State.store_dmaState (a : Addr) (v : Byte) :
    (s.store a v).dmaState = s.dmaState := rfl
@[simp] theorem State.store_dmaStart (a : Addr) (v : Byte) :
    (s.store a v).dmaStart = s.dmaStart := rfl
@[simp] theorem State.store_dmaLen (a : Addr) (v : Byte) :
    (s.store a v).dmaLen = s.dmaLen := rfl
@[simp] theorem State.store_dmaDir (a : Addr) (v : Byte) :
    (s.store a v).dmaDir = s.dmaDir := rfl
@[simp] theorem State.store_dmaPending (a : Addr) (v : Byte) :
    (s.store a v).dmaPending = s.dmaPending := rfl
@[simp] theorem State.store_dmaErrValid (a : Addr) (v : Byte) :
    (s.store a v).dmaErrValid = s.dmaErrValid := rfl
@[simp] theorem State.store_dmaErrAddr (a : Addr) (v : Byte) :
    (s.store a v).dmaErrAddr = s.dmaErrAddr := rfl
@[simp] theorem State.store_dmaErrCause (a : Addr) (v : Byte) :
    (s.store a v).dmaErrCause = s.dmaErrCause := rfl
@[simp] theorem State.store_table (a : Addr) (v : Byte) :
    (s.store a v).table = s.table := rfl
@[simp] theorem State.store_image (a : Addr) (v : Byte) :
    (s.store a v).image = s.image := rfl
@[simp] theorem State.store_response (a : Addr) (v : Byte) :
    (s.store a v).response = s.response := rfl
@[simp] theorem State.store_inbox (a : Addr) (v : Byte) :
    (s.store a v).inbox = s.inbox := rfl

/-! ### `State.accept` -/

@[simp] theorem State.accept_mem (img : Image) (rest : List PortEvent) :
    (s.accept img rest).mem = s.mem := rfl
@[simp] theorem State.accept_fwWritable (img : Image) (rest : List PortEvent) :
    (s.accept img rest).fwWritable = s.fwWritable := rfl
@[simp] theorem State.accept_phase (img : Image) (rest : List PortEvent) :
    (s.accept img rest).phase = s.phase := rfl
@[simp] theorem State.accept_romFault (img : Image) (rest : List PortEvent) :
    (s.accept img rest).romFault = s.romFault := rfl
@[simp] theorem State.accept_dmaState (img : Image) (rest : List PortEvent) :
    (s.accept img rest).dmaState = s.dmaState := rfl
@[simp] theorem State.accept_dmaStart (img : Image) (rest : List PortEvent) :
    (s.accept img rest).dmaStart = s.dmaStart := rfl
@[simp] theorem State.accept_dmaLen (img : Image) (rest : List PortEvent) :
    (s.accept img rest).dmaLen = s.dmaLen := rfl
@[simp] theorem State.accept_dmaDir (img : Image) (rest : List PortEvent) :
    (s.accept img rest).dmaDir = s.dmaDir := rfl
@[simp] theorem State.accept_dmaPending (img : Image) (rest : List PortEvent) :
    (s.accept img rest).dmaPending = s.dmaPending := rfl
@[simp] theorem State.accept_dmaErrValid (img : Image) (rest : List PortEvent) :
    (s.accept img rest).dmaErrValid = s.dmaErrValid := rfl
@[simp] theorem State.accept_dmaErrAddr (img : Image) (rest : List PortEvent) :
    (s.accept img rest).dmaErrAddr = s.dmaErrAddr := rfl
@[simp] theorem State.accept_dmaErrCause (img : Image) (rest : List PortEvent) :
    (s.accept img rest).dmaErrCause = s.dmaErrCause := rfl
@[simp] theorem State.accept_table (img : Image) (rest : List PortEvent) :
    (s.accept img rest).table = s.table := rfl
@[simp] theorem State.accept_image (img : Image) (rest : List PortEvent) :
    (s.accept img rest).image = img := rfl
@[simp] theorem State.accept_response (img : Image) (rest : List PortEvent) :
    (s.accept img rest).response = s.response := rfl
@[simp] theorem State.accept_inbox (img : Image) (rest : List PortEvent) :
    (s.accept img rest).inbox = rest := rfl

/-! ### `State.configureDma` -/

@[simp] theorem State.configureDma_mem (d : AccessKind) (p : Byte) (n : DmaLength) (a : Addr) :
    (s.configureDma d p n a).mem = s.mem := rfl
@[simp] theorem State.configureDma_fwWritable (d : AccessKind) (p : Byte) (n : DmaLength) (a : Addr) :
    (s.configureDma d p n a).fwWritable = s.fwWritable := rfl
@[simp] theorem State.configureDma_phase (d : AccessKind) (p : Byte) (n : DmaLength) (a : Addr) :
    (s.configureDma d p n a).phase = s.phase := rfl
@[simp] theorem State.configureDma_romFault (d : AccessKind) (p : Byte) (n : DmaLength) (a : Addr) :
    (s.configureDma d p n a).romFault = s.romFault := rfl
@[simp] theorem State.configureDma_dmaState (d : AccessKind) (p : Byte) (n : DmaLength) (a : Addr) :
    (s.configureDma d p n a).dmaState = .requested := rfl
@[simp] theorem State.configureDma_dmaStart (d : AccessKind) (p : Byte) (n : DmaLength) (a : Addr) :
    (s.configureDma d p n a).dmaStart = a := rfl
@[simp] theorem State.configureDma_dmaLen (d : AccessKind) (p : Byte) (n : DmaLength) (a : Addr) :
    (s.configureDma d p n a).dmaLen = n := rfl
@[simp] theorem State.configureDma_dmaDir (d : AccessKind) (p : Byte) (n : DmaLength) (a : Addr) :
    (s.configureDma d p n a).dmaDir = d := rfl
@[simp] theorem State.configureDma_dmaPending (d : AccessKind) (p : Byte) (n : DmaLength) (a : Addr) :
    (s.configureDma d p n a).dmaPending = p := rfl
@[simp] theorem State.configureDma_dmaErrValid (d : AccessKind) (p : Byte) (n : DmaLength) (a : Addr) :
    (s.configureDma d p n a).dmaErrValid = false := rfl
@[simp] theorem State.configureDma_dmaErrAddr (d : AccessKind) (p : Byte) (n : DmaLength) (a : Addr) :
    (s.configureDma d p n a).dmaErrAddr = 0x0000#16 := rfl
@[simp] theorem State.configureDma_dmaErrCause (d : AccessKind) (p : Byte) (n : DmaLength) (a : Addr) :
    (s.configureDma d p n a).dmaErrCause = 0x0#4 := rfl
@[simp] theorem State.configureDma_table (d : AccessKind) (p : Byte) (n : DmaLength) (a : Addr) :
    (s.configureDma d p n a).table = s.table := rfl
@[simp] theorem State.configureDma_image (d : AccessKind) (p : Byte) (n : DmaLength) (a : Addr) :
    (s.configureDma d p n a).image = s.image := rfl
@[simp] theorem State.configureDma_response (d : AccessKind) (p : Byte) (n : DmaLength) (a : Addr) :
    (s.configureDma d p n a).response = s.response := rfl
@[simp] theorem State.configureDma_inbox (d : AccessKind) (p : Byte) (n : DmaLength) (a : Addr) :
    (s.configureDma d p n a).inbox = s.inbox := rfl

/-! ### `State.completeDma` -/

@[simp] theorem State.completeDma_mem :
    (s.completeDma).mem = s.mem := rfl
@[simp] theorem State.completeDma_fwWritable :
    (s.completeDma).fwWritable = s.fwWritable := rfl
@[simp] theorem State.completeDma_phase :
    (s.completeDma).phase = s.phase := rfl
@[simp] theorem State.completeDma_romFault :
    (s.completeDma).romFault = s.romFault := rfl
@[simp] theorem State.completeDma_dmaState :
    (s.completeDma).dmaState = .complete := rfl
@[simp] theorem State.completeDma_dmaStart :
    (s.completeDma).dmaStart = 0x0000#16 := rfl
@[simp] theorem State.completeDma_dmaLen :
    (s.completeDma).dmaLen = s.dmaLen := rfl
@[simp] theorem State.completeDma_dmaDir :
    (s.completeDma).dmaDir = .read := rfl
@[simp] theorem State.completeDma_dmaPending :
    (s.completeDma).dmaPending = s.dmaPending := rfl
@[simp] theorem State.completeDma_dmaErrValid :
    (s.completeDma).dmaErrValid = s.dmaErrValid := rfl
@[simp] theorem State.completeDma_dmaErrAddr :
    (s.completeDma).dmaErrAddr = s.dmaErrAddr := rfl
@[simp] theorem State.completeDma_dmaErrCause :
    (s.completeDma).dmaErrCause = s.dmaErrCause := rfl
@[simp] theorem State.completeDma_table :
    (s.completeDma).table = s.table := rfl
@[simp] theorem State.completeDma_image :
    (s.completeDma).image = s.image := rfl
@[simp] theorem State.completeDma_response :
    (s.completeDma).response = s.response := rfl
@[simp] theorem State.completeDma_inbox :
    (s.completeDma).inbox = s.inbox := rfl

/-! ### `State.abortDma` -/

@[simp] theorem State.abortDma_mem (a : Addr) (f : AccessFault) :
    (s.abortDma a f).mem = s.mem := rfl
@[simp] theorem State.abortDma_fwWritable (a : Addr) (f : AccessFault) :
    (s.abortDma a f).fwWritable = s.fwWritable := rfl
@[simp] theorem State.abortDma_phase (a : Addr) (f : AccessFault) :
    (s.abortDma a f).phase = s.phase := rfl
@[simp] theorem State.abortDma_romFault (a : Addr) (f : AccessFault) :
    (s.abortDma a f).romFault = s.romFault := rfl
@[simp] theorem State.abortDma_dmaState (a : Addr) (f : AccessFault) :
    (s.abortDma a f).dmaState = .idle := rfl
@[simp] theorem State.abortDma_dmaStart (a : Addr) (f : AccessFault) :
    (s.abortDma a f).dmaStart = 0x0000#16 := rfl
@[simp] theorem State.abortDma_dmaLen (a : Addr) (f : AccessFault) :
    (s.abortDma a f).dmaLen = 0x0000#16 := rfl
@[simp] theorem State.abortDma_dmaDir (a : Addr) (f : AccessFault) :
    (s.abortDma a f).dmaDir = .read := rfl
@[simp] theorem State.abortDma_dmaPending (a : Addr) (f : AccessFault) :
    (s.abortDma a f).dmaPending = s.dmaPending := rfl
@[simp] theorem State.abortDma_dmaErrValid (a : Addr) (f : AccessFault) :
    (s.abortDma a f).dmaErrValid = true := rfl
@[simp] theorem State.abortDma_dmaErrAddr (a : Addr) (f : AccessFault) :
    (s.abortDma a f).dmaErrAddr = a := rfl
@[simp] theorem State.abortDma_dmaErrCause (a : Addr) (f : AccessFault) :
    (s.abortDma a f).dmaErrCause = f.cause := rfl
@[simp] theorem State.abortDma_table (a : Addr) (f : AccessFault) :
    (s.abortDma a f).table = s.table := rfl
@[simp] theorem State.abortDma_image (a : Addr) (f : AccessFault) :
    (s.abortDma a f).image = s.image := rfl
@[simp] theorem State.abortDma_response (a : Addr) (f : AccessFault) :
    (s.abortDma a f).response = s.response := rfl
@[simp] theorem State.abortDma_inbox (a : Addr) (f : AccessFault) :
    (s.abortDma a f).inbox = s.inbox := rfl

/-! ### `State.afterReset` -/

@[simp] theorem State.afterReset_mem (rest : List PortEvent) :
    (s.afterReset rest).mem = [] := rfl
@[simp] theorem State.afterReset_fwWritable (rest : List PortEvent) :
    (s.afterReset rest).fwWritable = true := rfl
@[simp] theorem State.afterReset_phase (rest : List PortEvent) :
    (s.afterReset rest).phase = .boot := rfl
@[simp] theorem State.afterReset_romFault (rest : List PortEvent) :
    (s.afterReset rest).romFault = false := rfl
@[simp] theorem State.afterReset_dmaState (rest : List PortEvent) :
    (s.afterReset rest).dmaState = .idle := rfl
@[simp] theorem State.afterReset_dmaStart (rest : List PortEvent) :
    (s.afterReset rest).dmaStart = 0x0000#16 := rfl
@[simp] theorem State.afterReset_dmaLen (rest : List PortEvent) :
    (s.afterReset rest).dmaLen = 0x0000#16 := rfl
@[simp] theorem State.afterReset_dmaDir (rest : List PortEvent) :
    (s.afterReset rest).dmaDir = .read := rfl
@[simp] theorem State.afterReset_dmaPending (rest : List PortEvent) :
    (s.afterReset rest).dmaPending = 0x00#8 := rfl
@[simp] theorem State.afterReset_dmaErrValid (rest : List PortEvent) :
    (s.afterReset rest).dmaErrValid = false := rfl
@[simp] theorem State.afterReset_dmaErrAddr (rest : List PortEvent) :
    (s.afterReset rest).dmaErrAddr = 0x0000#16 := rfl
@[simp] theorem State.afterReset_dmaErrCause (rest : List PortEvent) :
    (s.afterReset rest).dmaErrCause = 0x0#4 := rfl
@[simp] theorem State.afterReset_table (rest : List PortEvent) :
    (s.afterReset rest).table = s.table := rfl
@[simp] theorem State.afterReset_image (rest : List PortEvent) :
    (s.afterReset rest).image = s.image := rfl
@[simp] theorem State.afterReset_response (rest : List PortEvent) :
    (s.afterReset rest).response = none := rfl
@[simp] theorem State.afterReset_inbox (rest : List PortEvent) :
    (s.afterReset rest).inbox = rest := rfl

/-! ### `State.load` -/

@[simp] theorem State.answer_load (r : Response) (a : Addr) : (s.answer r).load a = s.load a := rfl
@[simp] theorem State.accept_load (img : Image) (rest : List PortEvent) (a : Addr) :
    (s.accept img rest).load a = s.load a := rfl
@[simp] theorem State.completeDma_load (a : Addr) : s.completeDma.load a = s.load a := rfl
@[simp] theorem State.abortDma_load (b : Addr) (f : AccessFault) (a : Addr) : (s.abortDma b f).load a = s.load a := rfl
@[simp] theorem State.configureDma_load (d : AccessKind) (p : Byte) (n : DmaLength) (b a : Addr) :
    (s.configureDma d p n b).load a = s.load a := rfl

end Sys2Proof.Machine
end

