-- ==== Sys2Proof/Laws/Requests.lean ====
section
/-! SUPPORT. What each request can do: every request answers a next state, and one lemma for each request that has cases. -/

namespace Sys2Proof.Machine

@[simp] theorem respond_eq (r : Response) (s : State) : respond r s = .next (s.answer r) := rfl

@[simp] theorem raise_eq (r : Response) (s : State) : raise r s = .next (s.answer r) := rfl

@[simp] theorem romFail_eq (r : Response) (s : State) :
    romFail r s = .next (State.answer { s with romFault := true } r) := rfl

theorem execResolve_next (kind : AccessKind) (a : Addr) (s : State) : ∃ r, execResolve kind a s = .next (s.answer r) := by
  unfold execResolve
  split <;> exact ⟨_, rfl⟩

theorem execRegionQuery_next (idx : Byte) (s : State) : ∃ r, execRegionQuery idx s = .next (s.answer r) := by
  unfold execRegionQuery
  split <;> exact ⟨_, rfl⟩

theorem execRead_next (a : Addr) (s : State) : ∃ r, execRead a s = .next (s.answer r) := by
  unfold execRead
  split
  · exact ⟨_, rfl⟩
  · split <;> exact ⟨_, rfl⟩

/-- A WRITE changes nothing, or stores its byte at its address after a successful decode, outside DmaActive. -/
theorem execWrite_cases (v : Byte) (a : Addr) (s : State) :
    (∃ r, r.status ≠ .ok ∧ execWrite v a s = .next (s.answer r)) ∨
    (s.dmaState ≠ .active ∧ ∃ g r, s.decodeAddr a .write = .ok a g ∧ r.status = .ok ∧
      execWrite v a s = .next ((s.store a v).answer r)) := by
  unfold execWrite
  split
  · exact Or.inl ⟨_, by simp, rfl⟩
  · rename_i hd
    split
    · rename_i f g hf
      exact Or.inl ⟨accessFailure f g a, by cases f <;> simp [accessFailure, AccessFault.status], rfl⟩
    · rename_i o g ho
      obtain rfl := State.decodeAddr_offset ho
      exact Or.inr ⟨hd, g, _, ho, rfl, rfl⟩

/-- A DMA_CONFIG changes nothing, or loads the transfer's registers from Idle, with a length and a range that are valid. -/
theorem execDmaConfig_cases (d : AccessKind) (p : Byte) (n : DmaLength) (a : Addr) (s : State) :
    (∃ r, execDmaConfig d p n a s = .next (s.answer r)) ∨
    (s.dmaState = .idle ∧ n ≠ 0x0000#16 ∧ dmaOutOfRange a n = false ∧
      ∃ r, r.status = .ok ∧ execDmaConfig d p n a s = .next ((s.configureDma d p n a).answer r)) := by
  unfold execDmaConfig
  split
  · exact Or.inl ⟨_, rfl⟩
  · rename_i hs
    split
    · exact Or.inl ⟨_, rfl⟩
    · rename_i hn
      split
      · exact Or.inl ⟨_, rfl⟩
      · rename_i hr
        exact Or.inr ⟨by simpa using hs, hn, by simpa using hr, _, rfl, rfl⟩

/-- Everything a DMA_STEP can do: nothing outside DmaActive; an abort after a failed decode; a byte stored; a byte read. -/
theorem execDmaStep_cases (s : State) :
    (s.dmaState ≠ .active ∧ execDmaStep s = .next (s.answer { status := .noEffect })) ∨
    (s.dmaState = .active ∧ ∃ f g r, s.decodeAddr s.dmaStart s.dmaDir = .fail f g ∧ r.status = .dmaAborted ∧
      execDmaStep s = .next ((s.abortDma s.dmaStart f).answer r)) ∨
    (s.dmaState = .active ∧ s.dmaDir = .write ∧ ∃ g r, s.decodeAddr s.dmaStart .write = .ok s.dmaStart g ∧ r.status = .ok ∧
      execDmaStep s = .next (((s.store s.dmaStart s.dmaPending).advanceDma s.dmaStart).answer r)) ∨
    (s.dmaState = .active ∧ s.dmaDir = .read ∧ ∃ g r, s.decodeAddr s.dmaStart .read = .ok s.dmaStart g ∧ r.status = .ok ∧
      execDmaStep s =
        .next ((State.advanceDma { s with dmaPending := s.load s.dmaStart } s.dmaStart).answer r)) := by
  unfold execDmaStep
  split
  · rename_i h; exact Or.inl ⟨h, rfl⟩
  · rename_i h
    have ha : s.dmaState = .active := by simpa using h
    refine Or.inr ?_
    split
    · rename_i hd
      split
      · rename_i f g hf
        exact Or.inl ⟨ha, f, g, _, by rw [hd, hf], rfl, rfl⟩
      · rename_i o g ho
        obtain rfl := State.decodeAddr_offset ho
        exact Or.inr (Or.inl ⟨ha, hd, g, _, ho, rfl, rfl⟩)
    · rename_i hd
      split
      · rename_i f g hf
        exact Or.inl ⟨ha, f, g, _, by rw [hd, hf], rfl, rfl⟩
      · rename_i o g ho
        have ho' := State.decodeAddr_offset ho
        subst ho'
        exact Or.inr (Or.inr ⟨ha, hd, g, _, ho, rfl, rfl⟩)

/-- After a moved byte: the transfer is complete, or goes on at the next address. -/
theorem State.advanceDma_cases (s : State) (a : Addr) :
    (s.dmaLen = 1#16 ∧ s.advanceDma a = State.completeDma { s with dmaLen := 0x0000#16 }) ∨
    (s.dmaLen ≠ 1#16 ∧ s.advanceDma a = { s with dmaLen := s.dmaLen - 1#16, dmaStart := a + 1#16 }) := by
  by_cases h : s.dmaLen = 1#16
  · exact Or.inl ⟨h, by simp [State.advanceDma, h]⟩
  · have h' : s.dmaLen - 1#16 ≠ 0x0000#16 := by bv_omega
    refine Or.inr ⟨h, ?_⟩
    unfold State.advanceDma
    simp only
    rw [if_neg h']

/-- Everything a ROM_LOAD can do: a refusal that changes nothing; an image error that sets `rom_fault`; an image error at a
malformed character, with the groups before it stored; or the whole image formatted. -/
theorem execRomLoad_cases (idx : Byte) (s : State) :
    (∃ r, r.status ≠ .ok ∧ execRomLoad idx s = .next (s.answer r)) ∨
    (s.phase = .boot ∧ s.dmaState ≠ .active ∧ ∃ q, s.region? idx = some q ∧
      ¬(idx.toNat = Config.fwRegion ∧ s.fwWritable = false) ∧
      ((∃ r, r.status ≠ .ok ∧ execRomLoad idx s = .next (State.answer { s with romFault := true } r)) ∨
       (∃ bad t r, formatChars q.base s.image.chars 0 0x00#8 s = (t, some bad) ∧
          s.image.chars.length ≤ q.capacity.toNat ∧
          r = { status := .romMalformedBit, region := regionId idx.toNat, count := BitVec.ofNat 32 bad.offset,
                data := bad.char } ∧ execRomLoad idx s = .next (State.answer { t with romFault := true } r)) ∨
       (∃ t r, formatChars q.base s.image.chars 0 0x00#8 s = (t, none) ∧ s.image.chars.length ≤ q.capacity.toNat ∧
          r.status = .ok ∧ execRomLoad idx s = .next (t.answer r)))) := by
  unfold execRomLoad
  split
  · exact Or.inl ⟨_, by simp, rfl⟩
  · rename_i hp
    split
    · exact Or.inl ⟨_, by simp, rfl⟩
    · rename_i q hq
      split
      · exact Or.inl ⟨_, by simp, rfl⟩
      · rename_i hd
        split
        · exact Or.inl ⟨_, by simp, rfl⟩
        · rename_i hl
          refine Or.inr ⟨by simpa using hp, hd, q, hq, hl, ?_⟩
          unfold loadImage
          simp only
          split
          · exact Or.inl ⟨_, by simp, rfl⟩
          · split
            · exact Or.inl ⟨_, by simp, rfl⟩
            · rename_i hlen
              have hlen' : s.image.chars.length ≤ q.capacity.toNat := by rw [Image.toNat_len] at hlen; omega
              split
              · rename_i t bad hf
                exact Or.inr (Or.inl ⟨bad, t, _, hf, hlen', rfl, rfl⟩)
              · rename_i t hf
                exact Or.inr (Or.inr ⟨t, _, hf, hlen', rfl, rfl⟩)

/-- Everything an FW_INSTALL can do. -/
theorem execFwInstall_cases (s : State) :
    (∃ r, r.status ≠ .ok ∧ execFwInstall s = .next (s.answer r)) ∨
    (s.phase = .boot ∧ s.fwWritable = true ∧ s.dmaState ≠ .active ∧ ∃ r, r.status = .ok ∧
      execFwInstall s = .next (State.answer { storeBytes 0x0000#16 Config.fwImage s with fwWritable := false } r)) := by
  unfold execFwInstall
  split
  · exact Or.inl ⟨_, by simp, rfl⟩
  · rename_i hp
    split
    · exact Or.inl ⟨_, by simp, rfl⟩
    · rename_i hf
      split
      · exact Or.inl ⟨_, by simp, rfl⟩
      · rename_i hd
        exact Or.inr ⟨by simpa using hp, by simpa using hf, hd, _, rfl, rfl⟩

/-- Everything a START can do. -/
theorem execStart_cases (s : State) :
    (∃ r, r.status ≠ .ok ∧ execStart s = .next (s.answer r)) ∨
    (s.phase = .boot ∧ s.romFault = false ∧
      execStart s = .next (State.answer { s with phase := .run } { status := .ok })) := by
  unfold execStart
  split
  · exact Or.inl ⟨_, by simp, rfl⟩
  · rename_i hp
    split
    · exact Or.inl ⟨_, by simp, rfl⟩
    · rename_i hr
      exact Or.inr ⟨by simpa using hp, by simpa using hr, rfl⟩

/-- Everything a DMA_GRANT can do. -/
theorem execDmaGrant_cases (s : State) :
    (s.dmaState ≠ .requested ∧ execDmaGrant s = .next (s.answer { status := .noEffect })) ∨
    (s.dmaState = .requested ∧
      execDmaGrant s = .next (State.answer { s with dmaState := .active } { status := .ok })) := by
  unfold execDmaGrant
  split
  · rename_i h; exact Or.inl ⟨h, rfl⟩
  · rename_i h; exact Or.inr ⟨by simpa using h, rfl⟩

/-- Everything a DMA_ACK can do. -/
theorem execDmaAck_cases (s : State) :
    (s.dmaState ≠ .complete ∧ execDmaAck s = .next (s.answer { status := .noEffect })) ∨
    (s.dmaState = .complete ∧
      execDmaAck s = .next (State.answer { s with dmaState := .idle } { status := .ok })) := by
  unfold execDmaAck
  split
  · rename_i h; exact Or.inl ⟨h, rfl⟩
  · rename_i h; exact Or.inr ⟨by simpa using h, rfl⟩

/-- What an event at the port does: nothing waits; a reset; a request that decodes; a word that does not. -/
theorem step_cases {s : State} (hw : RegionTable.WF s.table) :
    (s.inbox = [] ∧ step s = .next s) ∨
    (∃ rest, s.inbox = .reset :: rest ∧ step s = .next (s.afterReset rest)) ∨
    (∃ w image rest i, s.inbox = .request w image :: rest ∧ decode w = .ok i ∧ step s = exec i (s.accept image rest)) ∨
    (∃ w image rest e, s.inbox = .request w image :: rest ∧ decode w = .error e ∧
      step s = .next ((s.accept image rest).answer { status := .illegalRequest })) := by
  have hs : step s = servePort s := if_pos hw
  rw [hs]
  unfold servePort
  split
  · rename_i hin; exact Or.inl ⟨hin, rfl⟩
  · rename_i rest hin; exact Or.inr (Or.inl ⟨rest, hin, rfl⟩)
  · rename_i w image rest hin
    refine Or.inr (Or.inr ?_)
    unfold serve
    split
    · rename_i i hi
      exact Or.inl ⟨w, image, rest, i, hin, hi, rfl⟩
    · rename_i e he
      exact Or.inr ⟨w, image, rest, e, hin, he, rfl⟩

end Sys2Proof.Machine
end

