-- ==== Sys2Proof/Tests/Slice0.lean ====
section
/-! SUPPORT. Tests. Every expected value is taken from spec/95_test_vectors.md or worked out from the rule named; the vector's
name stands before its test. The theorems `witness_…` show, for each statement of Certificates/Slice0/Obligations.lean with
hypotheses, a state and operands that meet them together. -/

namespace Sys2Proof.Tests

open Sys2Proof Sys2Proof.Machine

abbrev Out := Host.Outcome State Fault Refusal

/-- The state after a step that answers one. -/
def after : Out → State
  | .next t => t
  | .fault _ => State.reset
  | .refused _ => State.reset

/-- The response of a step that answers one. -/
def resp (o : Out) : Option Response := (after o).response

/-- The characters of an image written as bits. -/
def bits (bs : List Nat) : List Byte := bs.map (fun b => if b = 0 then 0x30#8 else 0x31#8)

def imageOf (cs : List Byte) (h : cs.length < 2 ^ 32 := by decide) : Image := { present := true, chars := cs, fits := h }

def withImage (cs : List Byte) (h : cs.length < 2 ^ 32 := by decide) : State := { State.reset with image := imageOf cs h }

/-- 257 characters, one more than Firmware holds. -/
def withLongImage : State := withImage (List.replicate 257 0x30#8) (by rw [List.length_replicate]; decide)

/-- DmaActive, as after a configuration from reset and a grant. -/
def active (dir : AccessKind) (start : Addr) (len : DmaLength) (pending : Byte) : State :=
  { State.reset with dmaState := .active, dmaDir := dir, dmaStart := start, dmaLen := len, dmaPending := pending }

def requested : State := { active .read 0xFFFF#16 1#16 0x00#8 with dmaState := .requested }

def complete : State := { State.reset with dmaState := .complete, dmaPending := 0x22#8 }

def locked : State := { State.reset with fwWritable := false }

def running : State := { State.reset with phase := .run }

/-- `T_gap` of 95_test_vectors.md section 3.1: the I/O region narrowed to 0x7000 to 0x70FF. -/
def gapTable : RegionTable :=
  [ { name := .firmware, base := 0x0000#16, limit := 0x00FF#16, policy := .fwRegister },
    { name := .ram, base := 0x0100#16, limit := 0x6FFF#16, policy := .constant true },
    { name := .io, base := 0x7000#16, limit := 0x70FF#16, policy := .constant true },
    { name := .programRom, base := 0x8000#16, limit := 0xFFFF#16, policy := .constant false } ]

def gap : State := { State.reset with table := gapTable }

def firmwareEntry : Region := { name := .firmware, base := 0x0000#16, limit := 0x00FF#16, policy := .fwRegister }

def ramEntry (base limit : Addr) : Region := { name := .ram, base := base, limit := limit, policy := .constant true }

def romEntry : Region := { name := .programRom, base := 0x8000#16, limit := 0xFFFF#16, policy := .constant false }

/-! ### Well-formedness of a region table (R23) -/

theorem test_wf_default : RegionTable.WF Config.defaultTable := by decide
theorem test_wf_gap : RegionTable.WF gapTable := by decide
theorem test_wf1_refuses_empty : ¬RegionTable.WF1 [] := by decide
theorem test_wf1_refuses_eight : ¬RegionTable.WF1 (List.replicate 8 firmwareEntry) := by decide
theorem test_wf2_refuses_base_above_limit : ¬RegionTable.WF2 [firmwareEntry, ramEntry 0x0200#16 0x0100#16] := by decide
theorem test_wf3_refuses_overlap_at_0x7000 :
    ¬RegionTable.WF3 [firmwareEntry, ramEntry 0x0100#16 0x7000#16, ramEntry 0x7000#16 0x7FFF#16] := by decide
theorem test_wf4_refuses_no_register_policy : ¬RegionTable.WF4 [ramEntry 0x0000#16 0x00FF#16] := by decide
theorem test_wf4_refuses_too_short : ¬RegionTable.WF4 [{ firmwareEntry with limit := 0x0004#16 }] := by decide
theorem test_wf4_refuses_base : ¬RegionTable.WF4 [{ firmwareEntry with base := 0x0001#16 }] := by decide
theorem test_wf4_refuses_second_register :
    ¬RegionTable.WF4 [firmwareEntry, { firmwareEntry with base := 0x0100#16, limit := 0x01FF#16 }] := by decide
theorem test_step_refuses_ill_formed_table : step { State.reset with table := [] } = .refused .illFormedRegionTable := rfl

/-! ### Decoding: the encoding vectors of 95_test_vectors.md section 2 -/

theorem test_decode_resolve_read : decode 0x0000_0000_00FF#48 = .ok (.resolve .read 0x00FF#16) := rfl
theorem test_decode_resolve_write : decode 0x0800_0000_8000#48 = .ok (.resolve .write 0x8000#16) := rfl
theorem test_decode_read : decode 0x1000_0000_0100#48 = .ok (.read 0x0100#16) := rfl
theorem test_decode_write : decode 0x205A_0000_0100#48 = .ok (.write 0x5A#8 0x0100#16) := rfl
theorem test_decode_dma_config_write :
    decode 0x38AA_0004_0100#48 = .ok (.dmaConfig .write 0xAA#8 0x0004#16 0x0100#16) := rfl
theorem test_decode_dma_config_read :
    decode 0x3000_0002_8000#48 = .ok (.dmaConfig .read 0x00#8 0x0002#16 0x8000#16) := rfl
theorem test_decode_dma_load_pending : decode 0x4011_0000_0000#48 = .ok (.dmaLoadPending 0x11#8) := rfl
theorem test_decode_dma_read_pending : decode 0x5000_0000_0000#48 = .ok .dmaReadPending := rfl
theorem test_decode_dma_grant : decode 0x6000_0000_0000#48 = .ok .dmaGrant := rfl
theorem test_decode_dma_step : decode 0x7000_0000_0000#48 = .ok .dmaStep := rfl
theorem test_decode_dma_ack : decode 0x8000_0000_0000#48 = .ok .dmaAck := rfl
theorem test_decode_dma_status : decode 0x9000_0000_0000#48 = .ok .dmaStatus := rfl
theorem test_decode_rom_load : decode 0xA003_0000_0000#48 = .ok (.romLoad 0x03#8) := rfl
theorem test_decode_fw_install : decode 0xB000_0000_0000#48 = .ok .fwInstall := rfl
theorem test_decode_start : decode 0xC000_0000_0000#48 = .ok .start := rfl
theorem test_decode_region_query : decode 0xD001_0000_0000#48 = .ok (.regionQuery 0x01#8) := rfl

theorem test_decode_refuses_reserved_opcodes :
    decode 0xE000_0000_0000#48 = .error .reservedOpcode ∧ decode 0xF023_4567_89AB#48 = .error .reservedOpcode := ⟨rfl, rfl⟩
theorem test_decode_refuses_reserved_bits :
    decode 0x1100_0000_0100#48 = .error .reservedBits ∧ decode 0x3400_0004_0100#48 = .error .reservedBits := ⟨rfl, rfl⟩
theorem test_decode_refuses_unused_fields :
    decode 0x1800_0000_0100#48 = .error .unusedField ∧ decode 0x1001_0000_0100#48 = .error .unusedField ∧
    decode 0x1000_0001_0100#48 = .error .unusedField ∧ decode 0x0001_0000_0000#48 = .error .unusedField ∧
    decode 0x2800_0000_0100#48 = .error .unusedField ∧ decode 0x4000_0000_0001#48 = .error .unusedField ∧
    decode 0x7000_0000_0001#48 = .error .unusedField ∧ decode 0xA003_0000_8000#48 = .error .unusedField ∧
    decode 0xB800_0000_0000#48 = .error .unusedField := ⟨rfl, rfl, rfl, rfl, rfl, rfl, rfl, rfl, rfl⟩
theorem test_decode_table_word : decodeTableWord 48 0x3000_0000_0000 = some (.dmaConfig .read 0#8 0#16 0#16) := rfl
theorem test_decode_table_word_none : decodeTableWord 48 0xE000_0000_0000 = none := rfl

/-- R216: the illegality check comes first, even while DmaActive. -/
theorem test_illegal_word_while_active :
    resp (step (State.withFetchWord (active .write 0x0100#16 4#16 0xAA#8) 48 0x1100_0000_0100)) =
      some { status := .illegalRequest } := by decide
theorem test_step_runs_the_word : resp (step (State.reset.withFetchWord 48 0xB000_0000_0000)) =
    some { status := .ok, region := 0#3, count := 6#32 } := by decide

/-! ### The notation (R90, R91) -/

theorem test_print_write : requestChars (.write 0x5A#8 0x0100#16) = "WRITE 0x0100, 0x5A".toList := by decide
theorem test_print_dma_config :
    requestChars (.dmaConfig .write 0xAA#8 0x0004#16 0x0100#16) = "DMA_CONFIG.W 0x0100, 0x0004, 0xAA".toList := by decide
theorem test_expand_dma_run : Pseudo.expand (.dmaRun 2) = [.dmaGrant, .dmaStep, .dmaStep, .dmaAck] := rfl
theorem test_expand_boot : Pseudo.expand .boot = [.romLoad 0x03#8, .fwInstall, .start] := rfl

/-! ### The address decoder (section 3.1) -/

theorem test_resolve_write_rom : resp (exec (.resolve .write 0x8000#16) State.reset) =
    some { status := .writeProtected, region := 3#3, addr := 0x8000#16 } := by decide
theorem test_resolve_gap_is_unmapped_not_protected : resp (exec (.resolve .write 0x7100#16) gap) =
    some { status := .unmappedAddress, region := 7#3, addr := 0x7100#16 } := by decide
theorem test_region_query_ram : resp (exec (.regionQuery 0x01#8) State.reset) =
    some { status := .ok, region := 1#3, addr := 0x0100#16, addr2 := 0x6FFF#16, max := 0x6F00#17, data := 0x01#8 } := by
  decide
theorem test_region_query_firmware_locked : resp (exec (.regionQuery 0x00#8) locked) =
    some { status := .ok, region := 0#3, addr := 0x0000#16, addr2 := 0x00FF#16, max := 0x0100#17, data := 0x00#8 } := by
  decide

/-! ### CPU access (section 3.2) -/

/-- V-A8: BUS_BUSY before WRITE_PROTECTED. -/
theorem test_write_busy_before_protected : resp (exec (.write 0x0A#8 0x8000#16) (active .write 0x0100#16 4#16 0xAA#8)) =
    some { status := .busBusy, addr := 0x8000#16 } := by decide
/-- V-A2. -/
theorem test_write_io_stores : (after (exec (.write 0x3C#8 0x7000#16) State.reset)).mem = [(0x7000, 0x3C#8)] := by decide
/-- V-A3. -/
theorem test_read_io : resp (exec (.read 0x7000#16) { State.reset with mem := [(0x7000, 0x3C#8)] }) =
    some { status := .ok, data := 0x3C#8, region := 2#3, addr := 0x7000#16 } := by decide
/-- Section 3.1, READ 0x7FFF under T_gap. -/
theorem test_read_gap : resp (exec (.read 0x7FFF#16) gap) =
    some { status := .unmappedAddress, region := 7#3, addr := 0x7FFF#16 } := by decide

/-! ### ROM formatter (section 3.3) -/

/-- V-ROM6: a complete group is written, two characters are dropped. -/
theorem test_rom_load_partial_group :
    (after (exec (.romLoad 0x03#8) (withImage (bits [0, 1, 0, 0, 0, 0, 0, 1, 0, 1])))).mem = [(0x8000, 0x41#8)] ∧
    resp (exec (.romLoad 0x03#8) (withImage (bits [0, 1, 0, 0, 0, 0, 0, 1, 0, 1]))) =
      some { status := .ok, region := 3#3, count := 1#32, data := 2#8, max := 0x8000#17 } := by decide
/-- V-ROM7: the malformed character at index 9 leaves the first byte written. -/
theorem test_rom_load_malformed :
    (after (exec (.romLoad 0x03#8) (withImage (bits [0, 1, 0, 0, 0, 0, 0, 1, 0] ++ [0x32#8])))).mem = [(0x8000, 0x41#8)] ∧
    resp (exec (.romLoad 0x03#8) (withImage (bits [0, 1, 0, 0, 0, 0, 0, 1, 0] ++ [0x32#8]))) =
      some { status := .romMalformedBit, region := 3#3, count := 9#32, data := 0x32#8 } := by decide

/-! ### Firmware and start (section 3.4) -/

/-- V-F1. The byte 0x00 at 0x0005 is not listed. -/
theorem test_fw_install : (after (exec .fwInstall State.reset)).mem =
    [(0, 0x04#8), (1, 0x04#8), (2, 0xFF#8), (3, 0x01#8), (4, 0x80#8)] := by decide
/-- V-F7: phase before one-shot. -/
theorem test_fw_install_in_run : resp (exec .fwInstall running) = some { status := .illegalRequest } := by decide
/-- V-F9. -/
theorem test_start_while_active :
    (after (exec .start (active .write 0x0100#16 4#16 0xAA#8))).phase = .run := by decide
/-- V-F8. -/
theorem test_start_after_rom_fault : resp (exec .start { State.reset with romFault := true }) =
    some { status := .illegalRequest } := by decide

/-! ### Bus arbiter and DMA engine (section 3.5) -/

/-- V-D6. -/
theorem test_dma_config_out_of_range : resp (exec (.dmaConfig .read 0x00#8 0xFFFF#16 0x0002#16) State.reset) =
    some { status := .dmaOutOfRange, addr := 0x0002#16, count := 0xFFFF#32 } := by decide
/-- V-D11: busy before the no-op. -/
theorem test_dma_config_busy_before_no_op : resp (exec (.dmaConfig .read 0x00#8 0x0000#16 0x0100#16) complete) =
    some { status := .busBusy } := by decide
/-- V-D20. -/
theorem test_dma_load_pending_while_active :
    (after (exec (.dmaLoadPending 0x5E#8) (active .write 0x0100#16 4#16 0xAA#8))).dmaPending = 0x5E#8 := by decide
/-- V-D21, in the state of V-D32's end. -/
theorem test_dma_read_pending : resp (exec .dmaReadPending complete) = some { status := .ok, data := 0x22#8 } := by decide
/-- V-D24: the state after the grant. -/
theorem test_dma_grant : (after (exec .dmaGrant requested)).dmaState = .active := by decide
/-- W7 step 4. -/
theorem test_dma_step_write : resp (exec .dmaStep (active .write 0x0100#16 4#16 0xAA#8)) =
    some { status := .ok, region := 1#3, addr := 0x0100#16, data := 0xAA#8, count := 3#32 } := by decide
/-- P3 step 5: the abort at the Program ROM. -/
theorem test_dma_step_abort : resp (exec .dmaStep (active .write 0x8000#16 2#16 0x55#8)) =
    some { status := .dmaAborted, region := 3#3, addr := 0x8000#16, cause := 0x2#4 } := by decide
/-- V-D19: no cancellation. -/
theorem test_dma_ack_while_active : (after (exec .dmaAck (active .write 0x0100#16 4#16 0xAA#8))).dmaState = .active := by
  decide
/-- V-D28. -/
theorem test_dma_ack : (after (exec .dmaAck complete)).dmaState = .idle := by decide
/-- V-D27: `data` is 0x06 in a Write transfer, DmaActive. -/
theorem test_dma_status_active : resp (exec .dmaStatus (active .write 0x0101#16 1#16 0x10#8)) =
    some { status := .ok, data := 0x06#8, addr := 0x0101#16, count := 1#32 } := by decide
/-- V-D31: `data` is 0x08 after an abort. -/
theorem test_dma_status_after_abort : resp (exec .dmaStatus (after (exec .dmaStep (active .write 0x8000#16 2#16 0x55#8)))) =
    some { status := .ok, data := 0x08#8, addr2 := 0x8000#16, cause := 0x2#4 } := by decide

/-! ### Witnesses of the statements' hypotheses -/

/-- The state with a request at the port. -/
def asked (s : State) (w : RequestWord) : State := { s with inbox := [.request w s.image] }

def resetNext (s : State) : State := { s with inbox := [.reset] }

/-- A state with no transfer in progress keeps the invariant when its registers are those of reset. -/
theorem inv_of_reset_registers (s : State) (hm : s.mem.wf) (ht : RegionTable.WF s.table) (hd : s.dmaState = .idle)
    (hs : s.dmaStart = 0x0000#16) (hl : s.dmaLen = 0x0000#16) (hr : s.dmaDir = .read) (hv : s.dmaErrValid = false)
    (ha : s.dmaErrAddr = 0x0000#16) (hc : s.dmaErrCause = 0x0#4) (hf : s.romFault = false) : s.Inv :=
  { memory := hm, table := ht,
    idleZero := fun _ => ⟨hs, hl, hr⟩,
    inRange := (fun h => by rcases h with h | h <;> rw [hd] at h <;> cases h),
    latch := ⟨fun _ => ⟨ha, hc⟩, (fun h => by rw [hv] at h; cases h)⟩,
    booted := fun _ => hf }

theorem inv_active (dir : AccessKind) (start : Addr) (len : DmaLength) (pending : Byte) (h1 : 1 ≤ len.toNat)
    (h2 : start.toNat + len.toNat - 1 ≤ 0xFFFF) : (active dir start len pending).Inv :=
  { memory := (by decide : State.reset.mem.wf),
    table := test_wf_default,
    idleZero := (fun h => by rcases h with h | h <;> cases h),
    inRange := fun _ => ⟨h1, h2⟩,
    latch := ⟨fun _ => ⟨rfl, rfl⟩, (fun h => by cases h)⟩,
    booted := (fun h => by cases h) }

theorem witness_accepted_word : decode 0x0800_0000_8000#48 = .ok (.resolve .write 0x8000#16) := rfl

theorem witness_illegal_word : RegionTable.WF (asked running 0x1100_0000_0100#48).table ∧
    (asked running 0x1100_0000_0100#48).inbox = .request 0x1100_0000_0100#48 Image.absent :: [] ∧
    IllegalWord 0x1100_0000_0100#48 := by
  refine ⟨by decide, rfl, ?_⟩
  unfold IllegalWord; decide

theorem witness_step_runs : RegionTable.WF (asked running 0x1000_0000_0100#48).table ∧
    (asked running 0x1000_0000_0100#48).inbox = .request 0x1000_0000_0100#48 Image.absent :: [] ∧
    decode 0x1000_0000_0100#48 = .ok (.read 0x0100#16) := ⟨by decide, rfl, rfl⟩

theorem witness_answered_idle_port : RegionTable.WF running.table ∧ running.inbox = [] := by decide

theorem witness_reset_input : RegionTable.WF (resetNext complete).table ∧ (resetNext complete).inbox = .reset :: [] :=
  ⟨by decide, rfl⟩

theorem witness_inv_step :
    (asked (active .write 0x0100#16 4#16 0xAA#8) 0x7000_0000_0000#48).Inv ∧
    step (asked (active .write 0x0100#16 4#16 0xAA#8) 0x7000_0000_0000#48) =
      .next (after (step (asked (active .write 0x0100#16 4#16 0xAA#8) 0x7000_0000_0000#48))) := by
  refine ⟨?_, rfl⟩
  obtain ⟨a, b, c, d, e, f⟩ := inv_active .write 0x0100#16 4#16 0xAA#8 (by decide) (by decide)
  exact ⟨a, b, c, d, e, f⟩

theorem witness_mem_write : Memory.wf [(0x0100, 0x5A#8), (0xFFFF, 0x01#8)] := by decide

theorem witness_decode_protected : RegionTable.WF3 State.reset.table ∧ State.reset.table[3]? = some romEntry ∧
    romEntry.base.toNat ≤ (0x8000#16).toNat ∧ (0x8000#16).toNat ≤ romEntry.limit.toNat ∧
    writableBy State.reset.fwWritable romEntry = false := by decide
theorem witness_decode_allowed : RegionTable.WF3 State.reset.table ∧
    State.reset.table[1]? = some (ramEntry 0x0100#16 0x6FFF#16) ∧ (0x0100#16).toNat ≤ (0x6FFF#16).toNat ∧
    (0x6FFF#16).toNat ≤ (ramEntry 0x0100#16 0x6FFF#16).limit.toNat ∧
    writableBy State.reset.fwWritable (ramEntry 0x0100#16 0x6FFF#16) = true := by decide

theorem witness_outside_every_region :
    ∀ r ∈ gap.table, (0x7100#16).toNat < r.base.toNat ∨ r.limit.toNat < (0x7100#16).toNat := by decide

theorem witness_write_policy : RegionTable.WF State.reset.table ∧ State.reset.table = Config.defaultTable ∧
    State.reset.table[0]? = some firmwareEntry ∧ State.reset.table[1]? = some (ramEntry 0x0100#16 0x6FFF#16) ∧
    State.reset.table[3]? = some romEntry := by decide
theorem witness_write_policy_io : State.reset.table[2]? =
    some { name := .io, base := 0x7000#16, limit := 0x7FFF#16, policy := .constant true } := by decide

theorem witness_default_table : State.reset.table = Config.defaultTable ∧ locked.table = Config.defaultTable ∧
    defaultRegionOf 0x8000#16 = 3 ∧ (defaultRegionOf 0x00FF#16 = 0 ∧ locked.fwWritable = false) ∧
    defaultRegionOf 0x0100#16 = 1 ∧ defaultRegionOf 0x7FFF#16 = 2 ∧
    (defaultRegionOf 0x00FF#16 = 0 ∧ State.reset.fwWritable = true) := by decide

theorem witness_resolve : State.reset.decodeAddr 0x00FF#16 .write = .ok 0x00FF#16 0#3 ∧
    locked.decodeAddr 0x00FF#16 .write = .fail .writeProtected 0#3 := by decide

theorem witness_region_query : RegionTable.WF State.reset.table ∧ State.reset.table[(0x03#8).toNat]? = some romEntry ∧
    State.reset.table.length ≤ (0x04#8).toNat := by decide

theorem witness_read : (active .read 0x0100#16 1#16 0x00#8).dmaState = .active ∧
    (gap.dmaState ≠ .active ∧ gap.decodeAddr 0x70FF#16 .read = .ok 0x70FF#16 2#3) ∧
    gap.decodeAddr 0x7100#16 .read = .fail .unmappedAddress 7#3 := by decide

theorem witness_write : (active .write 0x0100#16 1#16 0x00#8).dmaState = .active ∧
    (State.reset.dmaState ≠ .active ∧ State.reset.decodeAddr 0x8000#16 .write = .fail .writeProtected 3#3) ∧
    State.reset.mem.wf ∧ State.reset.decodeAddr 0x7FFF#16 .write = .ok 0x7FFF#16 2#3 := by decide

theorem witness_cpu_access :
    exec (.read 0x0300#16) (active .read 0x0100#16 1#16 0x00#8) =
      .next (after (exec (.read 0x0300#16) (active .read 0x0100#16 1#16 0x00#8))) ∧
    exec (.write 0x0A#8 0x0300#16) (active .read 0x0100#16 1#16 0x00#8) =
      .next (after (exec (.write 0x0A#8 0x0300#16) (active .read 0x0100#16 1#16 0x00#8))) ∧
    exec (.write 0x0A#8 0x0300#16) complete = .next (after (exec (.write 0x0A#8 0x0300#16) complete)) ∧
    complete.dmaState ≠ .active := ⟨rfl, rfl, rfl, by decide⟩

/-- The requests between: a refused and an unrelated WRITE, a DMA_STEP of each direction, FW_INSTALL, a ROM_LOAD. -/
def between : List Instr :=
  [.dmaConfig .write 0x22#8 0x0001#16 0x0200#16, .dmaGrant, .write 0x11#8 0x0100#16, .dmaStep, .dmaAck, .fwInstall,
   .dmaConfig .read 0x00#8 0x0001#16 0x0100#16, .dmaGrant, .dmaStep, .romLoad 0x03#8, .write 0x11#8 0x0300#16]

theorem witness_last_byte_written : State.reset.mem.wf ∧ State.reset.table = Config.defaultTable ∧
    0x0100 ≤ (0x0100#16).toNat ∧ (0x0100#16).toNat ≤ 0x6FFF ∧ State.reset.dmaState ≠ .active ∧
    exec (.write 0x5A#8 0x0100#16) State.reset = .next (after (exec (.write 0x5A#8 0x0100#16) State.reset)) ∧
    NoneStoresAt between (after (exec (.write 0x5A#8 0x0100#16) State.reset)) 0x0100#16 ∧
    execSeq between (after (exec (.write 0x5A#8 0x0100#16) State.reset)) =
      .next (after (execSeq between (after (exec (.write 0x5A#8 0x0100#16) State.reset)))) ∧
    (after (execSeq between (after (exec (.write 0x5A#8 0x0100#16) State.reset)))).dmaState ≠ .active := by
  refine ⟨by decide, rfl, by decide, by decide, by decide, rfl, ?_, rfl, by decide⟩
  refine ⟨trivial, fun t h => ?_⟩; cases h
  refine ⟨trivial, fun t h => ?_⟩; cases h
  refine ⟨Or.inl rfl, fun t h => ?_⟩; cases h
  refine ⟨Or.inr (Or.inr (by decide)), fun t h => ?_⟩; cases h
  refine ⟨trivial, fun t h => ?_⟩; cases h
  refine ⟨Or.inr (Or.inr (Or.inr (by decide))), fun t h => ?_⟩; cases h
  refine ⟨trivial, fun t h => ?_⟩; cases h
  refine ⟨trivial, fun t h => ?_⟩; cases h
  refine ⟨Or.inr (Or.inl rfl), fun t h => ?_⟩; cases h
  refine ⟨Or.inr (Or.inr (Or.inl rfl)), fun t h => ?_⟩; cases h
  exact ⟨Or.inr (by decide), fun _ _ => trivial⟩

/-- The last RAM address, with no request between. -/
theorem witness_last_byte_written_last_address : State.reset.mem.wf ∧ (0x6FFF#16).toNat ≤ 0x6FFF ∧
    exec (.write 0x5A#8 0x6FFF#16) State.reset = .next (after (exec (.write 0x5A#8 0x6FFF#16) State.reset)) ∧
    NoneStoresAt [] (after (exec (.write 0x5A#8 0x6FFF#16) State.reset)) 0x6FFF#16 :=
  ⟨by decide, by decide, rfl, trivial⟩

/-- A ROM_LOAD into RAM itself whose one byte is another. -/
theorem witness_cannot_store_rom_load :
    Instr.CannotStoreAt (.romLoad 0x01#8) (withImage (bits [0, 1, 0, 0, 0, 0, 0, 1])) 0x0101#16 := by
  refine Or.inr (Or.inr (Or.inr fun r h => ?_))
  cases h
  refine Or.inr (Or.inr fun k hk => ?_)
  obtain rfl : k = 0 := Nat.lt_one_iff.1 hk
  decide

theorem witness_io_region : State.reset.mem.wf ∧ State.reset.table = Config.defaultTable ∧ State.reset.dmaState ≠ .active ∧
    0x7000 ≤ (0x7000#16).toNat ∧ (0x7FFF#16).toNat ≤ 0x7FFF := by decide

theorem witness_rom_load_refusals : running.phase = .run ∧
    (State.reset.phase = .boot ∧ State.reset.table.length ≤ (0x04#8).toNat) ∧
    ((active .read 0x0100#16 1#16 0x00#8).phase = .boot ∧
      (0x03#8).toNat < (active .read 0x0100#16 1#16 0x00#8).table.length ∧
      (active .read 0x0100#16 1#16 0x00#8).dmaState = .active) ∧
    (locked.phase = .boot ∧ (0x00#8).toNat = 0 ∧ locked.table[0]? = some firmwareEntry ∧ locked.dmaState ≠ .active ∧
      locked.fwWritable = false) := by decide

theorem witness_rom_load_admitted (s : State) (hp : s.phase = .boot) (ht : s.table = Config.defaultTable)
    (hd : s.dmaState ≠ .active) : s.AdmitsRomLoad 0x03#8 romEntry :=
  ⟨hp, by rw [ht]; rfl, hd, by simp⟩

theorem witness_rom_not_found : RegionTable.WF State.reset.table ∧ State.reset.AdmitsRomLoad 0x03#8 romEntry ∧
    State.reset.image.present = false := ⟨by decide, witness_rom_load_admitted _ rfl rfl (by decide), rfl⟩
/-- V-ROM16: 257 characters into Firmware. -/
theorem witness_rom_too_large : RegionTable.WF withLongImage.table ∧
    withLongImage.AdmitsRomLoad 0x00#8 firmwareEntry ∧
    withLongImage.image.present = true ∧
    sizeOfRegion firmwareEntry < withLongImage.image.chars.length :=
  ⟨by decide, ⟨rfl, rfl, by decide, by decide⟩, rfl,
    by simp only [withLongImage, withImage, imageOf, List.length_replicate]; decide⟩

theorem witness_rom_load_packs : (withImage (bits [0, 1, 0, 0, 0, 0, 0, 1, 0, 1])).mem.wf ∧
    RegionTable.WF (withImage (bits [0, 1, 0, 0, 0, 0, 0, 1, 0, 1])).table ∧
    (withImage (bits [0, 1, 0, 0, 0, 0, 0, 1, 0, 1])).AdmitsRomLoad 0x03#8 romEntry ∧
    (withImage (bits [0, 1, 0, 0, 0, 0, 0, 1, 0, 1])).image.chars.length ≤ sizeOfRegion romEntry ∧
    AllBits (bits [0, 1, 0, 0, 0, 0, 0, 1, 0, 1]) :=
  ⟨by decide, by decide, witness_rom_load_admitted _ rfl rfl (by decide), by decide, by unfold AllBits; decide⟩
/-- The longest image that the Firmware region admits (R143: 256 characters). -/
theorem witness_rom_load_full_size : (List.replicate 0x100 0x31#8).length ≤ sizeOfRegion firmwareEntry := by
  rw [List.length_replicate]; decide

theorem witness_rom_malformed :
    (withImage (bits [0, 1, 0, 0, 0, 0, 0, 1, 0] ++ [0x32#8])).AdmitsRomLoad 0x03#8 romEntry ∧
    (bits [0, 1, 0, 0, 0, 0, 0, 1, 0] ++ [0x32#8]).length ≤ sizeOfRegion romEntry ∧
    (bits [0, 1, 0, 0, 0, 0, 0, 1, 0] ++ [0x32#8])[9]? = some 0x32#8 ∧ 0x32#8 ≠ 0x30#8 ∧ 0x32#8 ≠ 0x31#8 ∧
    AllBits ((bits [0, 1, 0, 0, 0, 0, 0, 1, 0] ++ [0x32#8]).take 9) :=
  ⟨witness_rom_load_admitted _ rfl rfl (by decide), by decide, by decide, by decide, by decide, by unfold AllBits; decide⟩

theorem witness_rom_fault : exec (.romLoad 0x03#8) State.reset = .next (after (exec (.romLoad 0x03#8) State.reset)) ∧
    (after (exec (.romLoad 0x03#8) State.reset)).romFault ≠ State.reset.romFault ∧
    (after (exec (.romLoad 0x03#8) State.reset)).status? = some .romNotFound := ⟨rfl, by decide, by decide⟩
theorem witness_rom_fault_cleared : step (resetNext { State.reset with romFault := true }) = .next (after (step (resetNext
      { State.reset with romFault := true }))) ∧
    (after (step (resetNext { State.reset with romFault := true }))).romFault = false := ⟨rfl, by decide⟩

theorem witness_fw_install : running.phase = .run ∧ (locked.phase = .boot ∧ locked.fwWritable = false) ∧
    ((active .read 0x0100#16 1#16 0x00#8).phase = .boot ∧ (active .read 0x0100#16 1#16 0x00#8).fwWritable = true ∧
      (active .read 0x0100#16 1#16 0x00#8).dmaState = .active) ∧
    (complete.mem.wf ∧ complete.phase = .boot ∧ complete.fwWritable = true ∧ complete.dmaState ≠ .active) ∧
    5 < (0x0006#16 : Addr).toNat := by decide

theorem witness_start : (State.reset.phase = .boot ∧ State.reset.romFault = false) ∧ running.phase = .run ∧
    ({ State.reset with romFault := true } : State).romFault = true := by decide

theorem witness_fw_lock :
    step (asked State.reset 0xB000_0000_0000#48) = .next (after (step (asked State.reset 0xB000_0000_0000#48))) ∧
    (after (step (asked State.reset 0xB000_0000_0000#48))).fwWritable ≠ State.reset.fwWritable ∧
    step (resetNext locked) = .next (after (step (resetNext locked))) ∧
    (after (step (resetNext locked))).fwWritable ≠ locked.fwWritable := ⟨rfl, by decide, rfl, by decide⟩

theorem witness_phase :
    step (asked State.reset 0xC000_0000_0000#48) = .next (after (step (asked State.reset 0xC000_0000_0000#48))) ∧
    (after (step (asked State.reset 0xC000_0000_0000#48))).phase ≠ State.reset.phase ∧
    step (resetNext running) = .next (after (step (resetNext running))) ∧
    (after (step (resetNext running))).phase ≠ running.phase := ⟨rfl, by decide, rfl, by decide⟩

/-- A WRITE of 0x00FF, the last byte of the locked region. -/
theorem witness_locked_firmware : (asked locked 0x2077_0000_00FF#48).Inv ∧
    (asked locked 0x2077_0000_00FF#48).table[0]? = some firmwareEntry ∧ locked.fwWritable = false ∧
    ¬(asked locked 0x2077_0000_00FF#48).NextIsReset ∧
    step (asked locked 0x2077_0000_00FF#48) = .next (after (step (asked locked 0x2077_0000_00FF#48))) ∧
    (0x00FF#16 : Addr).toNat ≤ firmwareEntry.limit.toNat :=
  ⟨inv_of_reset_registers _ (by decide) (by decide) rfl rfl rfl rfl rfl rfl rfl rfl, rfl, rfl,
    (fun ⟨_, h⟩ => by cases h), rfl, by decide⟩

/-- A ROM_LOAD in Run, seen from the first and the last byte of the Program ROM. -/
theorem witness_read_only_in_run : (asked running 0xA003_0000_0000#48).Inv ∧ running.phase = .run ∧
    ¬(asked running 0xA003_0000_0000#48).NextIsReset ∧
    step (asked running 0xA003_0000_0000#48) = .next (after (step (asked running 0xA003_0000_0000#48))) ∧
    romEntry ∈ running.table ∧ romEntry.policy = .constant false ∧ romEntry.base.toNat ≤ (0x8000#16 : Addr).toNat ∧
    (0xFFFF#16 : Addr).toNat ≤ romEntry.limit.toNat :=
  ⟨inv_of_reset_registers _ (by decide) (by decide) rfl rfl rfl rfl rfl rfl rfl rfl, rfl,
    fun ⟨_, h⟩ => (by cases h), rfl, by decide, rfl, by decide, by decide⟩

theorem witness_boot : (imageOf (bits [0, 1, 0, 0, 0, 0, 0, 1])).present = true ∧ AllBits (bits [0, 1, 0, 0, 0, 0, 0, 1]) ∧ (bits [0, 1, 0, 0, 0, 0, 0, 1]).length ≤ 0x8000 ∧
    0 < (bits [0, 1, 0, 0, 0, 0, 0, 1]).length / 8 ∧ (5 < (0x8001#16 : Addr).toNat ∧ 0x8000 + 1 ≤ (0x8001#16 : Addr).toNat) :=
  ⟨rfl, by unfold AllBits; decide, by decide, by decide, by decide⟩

/-- V-D1 and V-D2: two bytes from 0xFFFF are out of range, one is not. -/
theorem witness_dma_config : requested.dmaState ≠ .idle ∧ State.reset.dmaState = .idle ∧
    (1 ≤ (2#16 : DmaLength).toNat ∧ 0xFFFF < (0xFFFF#16 : Addr).toNat + (2#16 : DmaLength).toNat - 1) ∧
    (1 ≤ (1#16 : DmaLength).toNat ∧ (0xFFFF#16 : Addr).toNat + (1#16 : DmaLength).toNat - 1 ≤ 0xFFFF) := by decide

theorem witness_grant_ack : requested.dmaState = .requested ∧ complete.dmaState ≠ .requested ∧
    complete.dmaState = .complete ∧ requested.dmaState ≠ .complete := by decide

theorem witness_dma_step_write : (active .write 0x7FFF#16 1#16 0x55#8).mem.wf ∧
    (active .write 0x7FFF#16 1#16 0x55#8).decodeAddr 0x7FFF#16 .write = .ok 0x7FFF#16 2#3 ∧
    (active .write 0x0100#16 4#16 0x55#8).decodeAddr 0x0100#16 .write = .ok 0x0100#16 1#3 ∧
    (active .write 0x7FFF#16 1#16 0x55#8).dmaLen = 1#16 ∧ (active .write 0x0100#16 4#16 0x55#8).dmaLen ≠ 1#16 := by decide

theorem witness_dma_step_read : (active .read 0xFFFF#16 1#16 0x55#8).decodeAddr 0xFFFF#16 .read = .ok 0xFFFF#16 3#3 ∧
    (active .read 0x0200#16 2#16 0x55#8).decodeAddr 0x0200#16 .read = .ok 0x0200#16 1#3 ∧
    (active .read 0xFFFF#16 1#16 0x55#8).dmaLen = 1#16 ∧ (active .read 0x0200#16 2#16 0x55#8).dmaLen ≠ 1#16 := by decide

theorem witness_dma_step_abort : complete.dmaState ≠ .active ∧ (active .write 0x8000#16 2#16 0x55#8).dmaState = .active ∧
    (active .write 0x8000#16 2#16 0x55#8).decodeAddr 0x8000#16 .write = .fail .writeProtected 3#3 := by decide
theorem witness_dma_step_abort_unmapped :
    ({ active .read 0x7100#16 1#16 0x00#8 with table := gapTable } : State).decodeAddr 0x7100#16 .read =
      .fail .unmappedAddress 7#3 := by decide

theorem witness_transitions :
    (exec .dmaGrant requested = .next (after (exec .dmaGrant requested)) ∧
      (after (exec .dmaGrant requested)).dmaState ≠ requested.dmaState) ∧
    exec (.dmaConfig .read 0x00#8 1#16 0xFFFF#16) State.reset =
      .next (after (exec (.dmaConfig .read 0x00#8 1#16 0xFFFF#16) State.reset)) ∧
    exec .dmaStep (active .write 0x7FFF#16 1#16 0x55#8) = .next (after (exec .dmaStep (active .write 0x7FFF#16 1#16 0x55#8))) ∧
    exec .dmaStep (active .write 0x8000#16 2#16 0x55#8) = .next (after (exec .dmaStep (active .write 0x8000#16 2#16 0x55#8))) ∧
    exec .dmaAck complete = .next (after (exec .dmaAck complete)) ∧
    (step (resetNext complete) = .next (after (step (resetNext complete))) ∧ (resetNext complete).NextIsReset) :=
  ⟨⟨rfl, by decide⟩, rfl, rfl, rfl, rfl, rfl, ⟨[], rfl⟩⟩

theorem witness_no_request_stops :
    (active .write 0x7FFF#16 1#16 0x55#8).dmaState = .active ∧
    exec .dmaStep (active .write 0x7FFF#16 1#16 0x55#8) = .next (after (exec .dmaStep (active .write 0x7FFF#16 1#16 0x55#8))) ∧
    (after (exec .dmaStep (active .write 0x7FFF#16 1#16 0x55#8))).dmaState ≠ .active ∧
    step (resetNext (active .write 0x7FFF#16 1#16 0x55#8)) =
      .next (after (step (resetNext (active .write 0x7FFF#16 1#16 0x55#8)))) ∧
    (after (step (resetNext (active .write 0x7FFF#16 1#16 0x55#8)))).dmaState ≠ .active :=
  ⟨rfl, rfl, by decide, rfl, by decide⟩

theorem witness_return_to_idle : (active .write 0x7FFE#16 4#16 0x55#8).Inv := inv_active _ _ _ _ (by decide) (by decide)

theorem witness_write_transfer : (active .write 0x7FFE#16 2#16 0x55#8).Inv ∧
    (active .write 0x7FFE#16 2#16 0x55#8).dmaLen.toNat = 2 ∧
    (∀ k, k < 2 → ∃ g, (active .write 0x7FFE#16 2#16 0x55#8).decodeAddr (0x7FFE#16 + BitVec.ofNat 16 k) .write =
      .ok (0x7FFE#16 + BitVec.ofNat 16 k) g) := by
  refine ⟨inv_active _ _ _ _ (by decide) (by decide), rfl, fun k hk => ⟨2#3, ?_⟩⟩
  interval_cases k <;> rfl

theorem witness_loaded_write_transfer : (active .write 0x7FFE#16 2#16 0x55#8).Inv ∧
    (active .write 0x7FFE#16 2#16 0x55#8).dmaLen.toNat = [0x11#8, 0x22#8].length ∧
    (∀ k, k < [0x11#8, 0x22#8].length → ∃ g, (active .write 0x7FFE#16 2#16 0x55#8).decodeAddr (0x7FFE#16 + BitVec.ofNat 16 k)
      .write = .ok (0x7FFE#16 + BitVec.ofNat 16 k) g) :=
  ⟨witness_write_transfer.1, rfl, witness_write_transfer.2.2⟩

/-- P3: four bytes from 0x7FFE, the third of them protected. -/
theorem witness_write_transfer_abort : (active .write 0x7FFE#16 4#16 0x55#8).Inv ∧
    2 < (active .write 0x7FFE#16 4#16 0x55#8).dmaLen.toNat ∧
    (∀ j, j < 2 → ∃ h, (active .write 0x7FFE#16 4#16 0x55#8).decodeAddr (0x7FFE#16 + BitVec.ofNat 16 j) .write =
      .ok (0x7FFE#16 + BitVec.ofNat 16 j) h) ∧
    (active .write 0x7FFE#16 4#16 0x55#8).decodeAddr (0x7FFE#16 + BitVec.ofNat 16 2) .write = .fail .writeProtected 3#3 := by
  refine ⟨inv_active _ _ _ _ (by decide) (by decide), by decide, fun j hj => ⟨2#3, ?_⟩, rfl⟩
  interval_cases j <;> rfl

theorem witness_read_transfer : (active .read 0xFFFE#16 2#16 0x00#8).Inv ∧
    (active .read 0xFFFE#16 2#16 0x00#8).dmaLen.toNat = 2 ∧
    (∀ k, k < 2 → ∃ g, (active .read 0xFFFE#16 2#16 0x00#8).decodeAddr (0xFFFE#16 + BitVec.ofNat 16 k) .read =
      .ok (0xFFFE#16 + BitVec.ofNat 16 k) g) := by
  refine ⟨inv_active _ _ _ _ (by decide) (by decide), rfl, fun k hk => ⟨3#3, ?_⟩⟩
  interval_cases k <;> rfl

theorem witness_decoded_like_cpu :
    exec .dmaStep (active .write 0x8000#16 2#16 0x55#8) = .next (after (exec .dmaStep (active .write 0x8000#16 2#16 0x55#8))) ∧
    exec (if (active .write 0x8000#16 2#16 0x55#8).dmaDir = .write then .write 0x55#8 0x8000#16 else .read 0x8000#16)
        { active .write 0x8000#16 2#16 0x55#8 with dmaState := .idle } =
      .next (after (exec (.write 0x55#8 0x8000#16) { active .write 0x8000#16 2#16 0x55#8 with dmaState := .idle })) :=
  ⟨rfl, rfl⟩

theorem witness_bus_changes_hands :
    (step (asked requested 0x6000_0000_0000#48) = .next (after (step (asked requested 0x6000_0000_0000#48))) ∧
      (asked requested 0x6000_0000_0000#48).OwnerChanges (after (step (asked requested 0x6000_0000_0000#48)))) ∧
    (step (asked (active .write 0x7FFF#16 1#16 0x55#8) 0x7000_0000_0000#48) =
        .next (after (step (asked (active .write 0x7FFF#16 1#16 0x55#8) 0x7000_0000_0000#48))) ∧
      (asked (active .write 0x7FFF#16 1#16 0x55#8) 0x7000_0000_0000#48).OwnerChanges
        (after (step (asked (active .write 0x7FFF#16 1#16 0x55#8) 0x7000_0000_0000#48)))) ∧
    (step (resetNext (active .write 0x7FFF#16 1#16 0x55#8)) =
        .next (after (step (resetNext (active .write 0x7FFF#16 1#16 0x55#8)))) ∧
      (resetNext (active .write 0x7FFF#16 1#16 0x55#8)).OwnerChanges
        (after (step (resetNext (active .write 0x7FFF#16 1#16 0x55#8))))) := by
  refine ⟨⟨rfl, ?_⟩, ⟨rfl, ?_⟩, ⟨rfl, ?_⟩⟩ <;> unfold State.OwnerChanges <;> decide

theorem witness_avoids_memory : Instr.AvoidsMemory (.resolve .write 0x8000#16) ∧ Instr.AvoidsMemory .start :=
  ⟨trivial, trivial⟩

theorem witness_memory_while_active :
    (asked (active .write 0x0100#16 4#16 0xAA#8) 0x7000_0000_0000#48).dmaState = .active ∧
    step (asked (active .write 0x0100#16 4#16 0xAA#8) 0x7000_0000_0000#48) =
      .next (after (step (asked (active .write 0x0100#16 4#16 0xAA#8) 0x7000_0000_0000#48))) ∧
    (after (step (asked (active .write 0x0100#16 4#16 0xAA#8) 0x7000_0000_0000#48))).mem ≠
      (asked (active .write 0x0100#16 4#16 0xAA#8) 0x7000_0000_0000#48).mem := ⟨rfl, rfl, by decide⟩

theorem witness_non_ok : exec .dmaStep (active .write 0x8000#16 2#16 0x55#8) =
      .next (after (exec .dmaStep (active .write 0x8000#16 2#16 0x55#8))) ∧
    resp (exec .dmaStep (active .write 0x8000#16 2#16 0x55#8)) =
      some { status := .dmaAborted, region := 3#3, addr := 0x8000#16, cause := 0x2#4 } ∧ Status.dmaAborted ≠ .ok :=
  ⟨rfl, by decide, by decide⟩

/-- V-ROM7's state: the malformed character at index 9. -/
theorem witness_non_ok_malformed :
    exec (.romLoad 0x03#8) (withImage (bits [0, 1, 0, 0, 0, 0, 0, 1, 0] ++ [0x32#8])) =
      .next (after (exec (.romLoad 0x03#8) (withImage (bits [0, 1, 0, 0, 0, 0, 0, 1, 0] ++ [0x32#8])))) ∧
    resp (exec (.romLoad 0x03#8) (withImage (bits [0, 1, 0, 0, 0, 0, 0, 1, 0] ++ [0x32#8]))) =
      some { status := .romMalformedBit, region := 3#3, count := 9#32, data := 0x32#8 } := ⟨rfl, by decide⟩

theorem witness_illegal_request :
    (asked running 0xA003_0000_0000#48).inbox = .request 0xA003_0000_0000#48 Image.absent :: [] ∧
    step (asked running 0xA003_0000_0000#48) = .next (after (step (asked running 0xA003_0000_0000#48))) ∧
    (after (step (asked running 0xA003_0000_0000#48))).status? = some .illegalRequest := ⟨rfl, rfl, by decide⟩

theorem witness_no_effect : exec .dmaStep requested = .next (after (exec .dmaStep requested)) ∧
    (after (exec .dmaStep requested)).status? = some .noEffect := ⟨rfl, by decide⟩

theorem witness_bus_busy : (active .read 0x0100#16 1#16 0x00#8).dmaState = .active ∧
    (active .read 0x0100#16 1#16 0x00#8).phase = .boot ∧ (active .read 0x0100#16 1#16 0x00#8).fwWritable = true ∧
    (0x03#8).toNat < (active .read 0x0100#16 1#16 0x00#8).table.length ∧
    (after (exec .fwInstall (active .read 0x0100#16 1#16 0x00#8))).status? = some .busBusy ∧
    (after (exec (.romLoad 0x03#8) (active .read 0x0100#16 1#16 0x00#8))).status? = some .busBusy := by decide

end Sys2Proof.Tests
end

section
/-! PROOFS. The state of the block (10_state.md): the write policies of the region table, the three mode registers
`fw_writable`, `phase` and `rom_fault` with everything that can change them, and the level outputs. -/

namespace Sys2Proof.Machine

/-! ### What a step does, in terms of the next event at the port -/

/-- Every step that answers a state: nothing waits; a reset; a request, run in the state that accepts it; an illegal word. -/
theorem step_next_cases {s t : State} (h : step s = .next t) :
    t = s ∨ (s.NextIsReset ∧ ∃ rest, t = s.afterReset rest) ∨
    (∃ i image rest, s.NextIs i ∧ exec i (s.accept image rest) = .next t) ∨
    ∃ image rest, t = (s.accept image rest).answer { status := .illegalRequest } := by
  have hw : RegionTable.WF s.table := by
    by_contra hw
    simp [step, hw] at h
  obtain ⟨-, hs⟩ | ⟨rest, hin, hs⟩ | ⟨w, image, rest, i, hin, hi, hs⟩ | ⟨w, image, rest, e, -, -, hs⟩ := step_cases hw
  all_goals rw [hs] at h
  · exact .inl (by simpa using h.symm)
  · exact .inr (.inl ⟨⟨rest, hin⟩, rest, by simpa using h.symm⟩)
  · exact .inr (.inr (.inl ⟨i, image, rest, ⟨w, image, rest, hin, hi⟩, h⟩))
  · exact .inr (.inr (.inr ⟨image, rest, by simpa using h.symm⟩))

/-! ### The mode registers -/

theorem Phase.eq_run_of_ne_boot {p : Phase} (h : p ≠ .boot) : p = .run := by
  cases p
  · exact absurd rfl h
  · rfl

/-- The three registers of 10_state.md that no transfer touches: `fw_writable` (R24), `phase` (R26), `rom_fault` (R27). -/
structure Mode where
  fwWritable : Bool
  phase      : Phase
  romFault   : Bool

/-- The mode registers of a state. -/
def State.mode (s : State) : Mode := { fwWritable := s.fwWritable, phase := s.phase, romFault := s.romFault }

theorem State.advanceDma_mode (s : State) (a : Addr) : (s.advanceDma a).mode = s.mode := by
  obtain ⟨-, h⟩ | ⟨-, h⟩ := s.advanceDma_cases a <;> rw [h] <;> rfl

theorem formatChars_mode (base : Addr) (cs : List Byte) (i : Nat) (acc : Byte) (s : State) :
    (formatChars base cs i acc s).1.mode = s.mode := by
  rw [formatChars_frame]
  rfl

theorem storeBytes_mode (a : Addr) (vs : List Byte) (s : State) : (storeBytes a vs s).mode = s.mode := by
  rw [storeBytes_frame]
  rfl

/-! ### The statuses that report a ROM error -/

/-- The three ROM errors (R142). -/
def Status.isRomError : Status → Bool
  | .romNotFound | .romTooLarge | .romMalformedBit => true
  | _ => false

theorem Status.isRomError_iff (st : Status) :
    st.isRomError = true ↔ st = .romNotFound ∨ st = .romTooLarge ∨ st = .romMalformedBit := by
  cases st <;> simp [Status.isRomError]

/-- The response output shows a ROM error. -/
def State.ReportsRomError (s : State) : Prop :=
  s.status? = some .romNotFound ∨ s.status? = some .romTooLarge ∨ s.status? = some .romMalformedBit

@[simp] theorem State.answer_reportsRomError (s : State) (r : Response) :
    (s.answer r).ReportsRomError ↔ r.status.isRomError = true := by
  simp [State.ReportsRomError, State.status?, Status.isRomError_iff]

theorem AccessFault.status_isRomError (f : AccessFault) : f.status.isRomError = false := by
  cases f <;> rfl

/-- A request's outcome reports no ROM error. -/
def NoRomError (o : Host.Outcome State Fault Refusal) : Prop := ∀ t, o = .next t → ¬t.ReportsRomError

theorem noRomError_next_answer {s : State} {r : Response} (h : r.status.isRomError = false) :
    NoRomError (.next (s.answer r)) := by
  rintro _ ⟨⟩
  simpa using h

theorem noRomError_accessFailure (f : AccessFault) (g : RegionId) (a : Addr) (s : State) :
    NoRomError (raise (accessFailure f g a) s) :=
  noRomError_next_answer f.status_isRomError

theorem noRomError_of_status_eq {s : State} {r : Response} {st : Status} (h : r.status = st)
    (hst : st.isRomError = false) : NoRomError (.next (s.answer r)) :=
  noRomError_next_answer (h.symm ▸ hst)

theorem execResolve_noRomError (kind : AccessKind) (a : Addr) (s : State) : NoRomError (execResolve kind a s) := by
  unfold execResolve
  split
  · exact noRomError_accessFailure _ _ _ _
  · exact noRomError_next_answer rfl

theorem execRegionQuery_noRomError (idx : Byte) (s : State) : NoRomError (execRegionQuery idx s) := by
  unfold execRegionQuery
  split <;> exact noRomError_next_answer rfl

theorem execRead_noRomError (a : Addr) (s : State) : NoRomError (execRead a s) := by
  unfold execRead
  split
  · exact noRomError_next_answer rfl
  · split
    · exact noRomError_accessFailure _ _ _ _
    · exact noRomError_next_answer rfl

theorem execWrite_noRomError (v : Byte) (a : Addr) (s : State) : NoRomError (execWrite v a s) := by
  unfold execWrite
  split
  · exact noRomError_next_answer rfl
  · split
    · exact noRomError_accessFailure _ _ _ _
    · exact noRomError_next_answer rfl

theorem execDmaConfig_noRomError (d : AccessKind) (p : Byte) (n : DmaLength) (a : Addr) (s : State) :
    NoRomError (execDmaConfig d p n a s) := by
  unfold execDmaConfig
  split_ifs <;> exact noRomError_next_answer rfl

theorem execDmaGrant_noRomError (s : State) : NoRomError (execDmaGrant s) := by
  unfold execDmaGrant
  split <;> exact noRomError_next_answer rfl

theorem execDmaStep_noRomError (s : State) : NoRomError (execDmaStep s) := by
  obtain ⟨-, h⟩ | ⟨-, f, g, r, -, hr, h⟩ | ⟨-, -, g, r, -, hr, h⟩ | ⟨-, -, g, r, -, hr, h⟩ := execDmaStep_cases s <;>
    rw [h]
  · exact noRomError_next_answer rfl
  all_goals exact noRomError_of_status_eq hr rfl

theorem execDmaAck_noRomError (s : State) : NoRomError (execDmaAck s) := by
  unfold execDmaAck
  split <;> exact noRomError_next_answer rfl

theorem execFwInstall_noRomError (s : State) : NoRomError (execFwInstall s) := by
  unfold execFwInstall
  split_ifs <;> exact noRomError_next_answer rfl

theorem execStart_noRomError (s : State) : NoRomError (execStart s) := by
  unfold execStart
  split_ifs <;> exact noRomError_next_answer rfl

/-- Only a ROM_LOAD answers a ROM error. -/
theorem exists_romLoad_of_reportsRomError {i : Instr} {s t : State} (h : exec i s = .next t)
    (he : t.ReportsRomError) : ∃ idx, i = .romLoad idx := by
  cases i with
  | romLoad idx => exact ⟨idx, rfl⟩
  | resolve kind a => exact absurd he (execResolve_noRomError kind a s t h)
  | read a => exact absurd he (execRead_noRomError a s t h)
  | write v a => exact absurd he (execWrite_noRomError v a s t h)
  | dmaConfig d p n a => exact absurd he (execDmaConfig_noRomError d p n a s t h)
  | dmaLoadPending v => exact absurd he (noRomError_next_answer rfl t h)
  | dmaReadPending => exact absurd he (noRomError_next_answer rfl t h)
  | dmaGrant => exact absurd he (execDmaGrant_noRomError s t h)
  | dmaStep => exact absurd he (execDmaStep_noRomError s t h)
  | dmaAck => exact absurd he (execDmaAck_noRomError s t h)
  | dmaStatus => exact absurd he (noRomError_next_answer rfl t h)
  | fwInstall => exact absurd he (execFwInstall_noRomError s t h)
  | start => exact absurd he (execStart_noRomError s t h)
  | regionQuery idx => exact absurd he (execRegionQuery_noRomError idx s t h)

/-! ### What each request does to the mode registers -/

/-- What a ROM_LOAD does to the mode registers: nothing, with no ROM error; or it sets `rom_fault`, with one (R142). -/
def RomLoadMode (s t : State) : Prop :=
  (t.mode = s.mode ∧ ¬t.ReportsRomError) ∨ (t.mode = { s.mode with romFault := true } ∧ t.ReportsRomError)

theorem romLoadMode_answer {s u : State} {r : Response} (hu : u.mode = s.mode) (hr : r.status.isRomError = false) :
    RomLoadMode s (u.answer r) :=
  .inl ⟨hu, by simpa using hr⟩

theorem romLoadMode_romFail {s u : State} {r : Response} (hu : u.mode = s.mode) (hr : r.status.isRomError = true) :
    RomLoadMode s (State.answer { u with romFault := true } r) := by
  refine .inr ⟨?_, by simpa using hr⟩
  rw [← hu]
  rfl

theorem loadImage_mode (idx : Byte) (q : Region) (s : State) : ∃ t, loadImage idx q s = .next t ∧ RomLoadMode s t := by
  have hmode := formatChars_mode q.base s.image.chars 0 0x00#8 s
  unfold loadImage
  simp only
  split_ifs
  · exact ⟨_, rfl, romLoadMode_romFail rfl rfl⟩
  · exact ⟨_, rfl, romLoadMode_romFail rfl rfl⟩
  · split
    next hf => exact ⟨_, rfl, romLoadMode_romFail (by simpa [hf] using hmode) rfl⟩
    next hf => exact ⟨_, rfl, romLoadMode_answer (by simpa [hf] using hmode) rfl⟩

theorem execRomLoad_mode (idx : Byte) (s : State) : ∃ t, execRomLoad idx s = .next t ∧ RomLoadMode s t := by
  unfold execRomLoad
  split
  · exact ⟨_, rfl, romLoadMode_answer rfl rfl⟩
  · split
    · exact ⟨_, rfl, romLoadMode_answer rfl rfl⟩
    · split_ifs
      · exact ⟨_, rfl, romLoadMode_answer rfl rfl⟩
      · exact ⟨_, rfl, romLoadMode_answer rfl rfl⟩
      · exact loadImage_mode ..

/-- Everything a request can do to the mode registers: keep them; lock Firmware; start; set `rom_fault`. -/
inductive ModeStep (s t : State) : Instr → Prop
  | kept {i : Instr} (ht : t.mode = s.mode) : ModeStep s t i
  | locked (hw : s.fwWritable = true) (ht : t.mode = { s.mode with fwWritable := false }) : ModeStep s t .fwInstall
  | started (hp : s.phase = .boot) (ht : t.mode = { s.mode with phase := .run }) : ModeStep s t .start
  | romFailed {idx : Byte} (ht : t.mode = { s.mode with romFault := true }) (he : t.ReportsRomError) :
      ModeStep s t (.romLoad idx)

/-- No request clears `rom_fault` (R27). -/
theorem ModeStep.romFault_stays {i : Instr} {s t : State} (h : ModeStep s t i) (hs : s.romFault = true) :
    t.romFault = true := by
  cases h with
  | kept ht => exact (congrArg Mode.romFault ht).trans hs
  | locked _ ht => exact (congrArg Mode.romFault ht).trans hs
  | started _ ht => exact (congrArg Mode.romFault ht).trans hs
  | romFailed ht _ => exact congrArg Mode.romFault ht

theorem ModeStep.of_next_answer {i : Instr} {s t u : State} {r : Response} {o : Host.Outcome State Fault Refusal}
    (h : o = .next t) (hu : o = .next (u.answer r)) (hm : u.mode = s.mode) : ModeStep s t i := by
  obtain rfl : t = u.answer r := by simpa [h] using hu
  exact .kept hm

theorem execDmaStep_mode (s : State) : ∃ u r, execDmaStep s = .next (State.answer u r) ∧ u.mode = s.mode := by
  obtain ⟨-, h⟩ | ⟨-, f, g, r, -, -, h⟩ | ⟨-, -, g, r, -, -, h⟩ | ⟨-, -, g, r, -, -, h⟩ := execDmaStep_cases s
  · exact ⟨_, _, h, rfl⟩
  · exact ⟨_, _, h, rfl⟩
  · exact ⟨_, _, h, State.advanceDma_mode ..⟩
  · exact ⟨_, _, h, State.advanceDma_mode ..⟩

theorem execFwInstall_modeStep {s t : State} (h : execFwInstall s = .next t) : ModeStep s t .fwInstall := by
  obtain ⟨r, -, hr⟩ | ⟨-, hw, -, r, -, hr⟩ := execFwInstall_cases s
  · exact .of_next_answer h hr rfl
  · obtain rfl := by simpa [h] using hr
    refine .locked hw ?_
    rw [← storeBytes_mode 0x0000#16 Config.fwImage s]
    rfl

theorem execStart_modeStep {s t : State} (h : execStart s = .next t) : ModeStep s t .start := by
  obtain ⟨r, -, hr⟩ | ⟨hp, -, hr⟩ := execStart_cases s
  · exact .of_next_answer h hr rfl
  · obtain rfl := by simpa [h] using hr
    exact .started hp rfl

theorem exec_modeStep {i : Instr} {s t : State} (h : exec i s = .next t) : ModeStep s t i := by
  cases i with
  | resolve kind a =>
    obtain ⟨r, hr⟩ := execResolve_next kind a s
    exact .of_next_answer h hr rfl
  | read a =>
    obtain ⟨r, hr⟩ := execRead_next a s
    exact .of_next_answer h hr rfl
  | write v a =>
    obtain ⟨r, -, hr⟩ | ⟨-, g, r, -, -, hr⟩ := execWrite_cases v a s
    · exact .of_next_answer h hr rfl
    · exact .of_next_answer h hr rfl
  | dmaConfig d p n a =>
    obtain ⟨r, hr⟩ | ⟨-, -, -, r, -, hr⟩ := execDmaConfig_cases d p n a s
    · exact .of_next_answer h hr rfl
    · exact .of_next_answer h hr rfl
  | dmaLoadPending v => exact .of_next_answer h (respond_eq ..) rfl
  | dmaReadPending => exact .of_next_answer h (respond_eq ..) rfl
  | dmaGrant =>
    obtain ⟨-, hr⟩ | ⟨-, hr⟩ := execDmaGrant_cases s
    · exact .of_next_answer h hr rfl
    · exact .of_next_answer h hr rfl
  | dmaStep =>
    obtain ⟨u, r, hr, hm⟩ := execDmaStep_mode s
    exact .of_next_answer h hr hm
  | dmaAck =>
    obtain ⟨-, hr⟩ | ⟨-, hr⟩ := execDmaAck_cases s
    · exact .of_next_answer h hr rfl
    · exact .of_next_answer h hr rfl
  | dmaStatus => exact .of_next_answer h (respond_eq ..) rfl
  | romLoad idx =>
    obtain ⟨u, hu, ⟨hm, -⟩ | ⟨hm, he⟩⟩ := execRomLoad_mode idx s <;>
      obtain rfl : t = u := by simpa [exec, hu] using h.symm
    · exact .kept hm
    · exact .romFailed hm he
  | fwInstall => exact execFwInstall_modeStep h
  | start => exact execStart_modeStep h
  | regionQuery idx =>
    obtain ⟨r, hr⟩ := execRegionQuery_next idx s
    exact .of_next_answer h hr rfl

/-- A ROM_LOAD that reports a ROM error has set `rom_fault`. -/
theorem romFault_of_reportsRomError {i : Instr} {s t : State} (h : exec i s = .next t) (he : t.ReportsRomError) :
    t.romFault = true := by
  obtain ⟨idx, rfl⟩ := exists_romLoad_of_reportsRomError h he
  obtain ⟨u, hu, hm⟩ := execRomLoad_mode idx s
  obtain rfl : t = u := by simpa [exec, hu] using h.symm
  obtain ⟨-, hn⟩ | ⟨hm, -⟩ := hm
  · exact absurd he hn
  · exact congrArg Mode.romFault hm

/-- A step that changes a mode register is a reset, or a request with its effect on the mode registers. -/
theorem step_mode_cases {s t : State} (h : step s = .next t) :
    t.mode = s.mode ∨ (s.NextIsReset ∧ t.mode = State.reset.mode) ∨ ∃ i, s.NextIs i ∧ ModeStep s t i := by
  obtain rfl | ⟨hreset, rest, rfl⟩ | ⟨i, image, rest, hi, hx⟩ | ⟨image, rest, rfl⟩ := step_next_cases h
  · exact .inl rfl
  · exact .inr (.inl ⟨hreset, rfl⟩)
  · refine .inr (.inr ⟨i, hi, ?_⟩)
    cases exec_modeStep hx with
    | kept ht => exact .kept ht
    | locked hw ht => exact .locked hw ht
    | started hp ht => exact .started hp ht
    | romFailed ht he => exact .romFailed ht he
  · exact .inl rfl

/-! ### The entries of a well-formed region table (R22, R23) -/

/-- Entry 0 of a well-formed table has the register as its policy (WF4). -/
theorem RegionTable.policy_of_first {t : RegionTable} {r : Region} (hw : RegionTable.WF t) (h : t[0]? = some r) :
    r.policy = .fwRegister := by
  obtain ⟨-, -, -, ⟨q, hq, -, -, hpol⟩, -⟩ := hw
  obtain rfl : r = q := by
    rw [← List.head?_eq_getElem?] at h
    simpa [h] using hq
  exact hpol

/-- Every later entry of a well-formed table has a constant policy (WF4). -/
theorem RegionTable.policy_of_later {t : RegionTable} {r : Region} {i : Nat} (hw : RegionTable.WF t)
    (h : t[i + 1]? = some r) : ∃ b, r.policy = .constant b := by
  obtain ⟨-, -, -, -, htail⟩ := hw
  have hmem : r ∈ t.tail := List.mem_of_getElem? (i := i) (by rwa [List.getElem?_tail])
  cases hp : r.policy with
  | fwRegister => exact absurd hp (htail r hmem)
  | constant b => exact ⟨b, rfl⟩

/-! ### The statements -/

/-- Settles O16: WF4 gives entry 0 the register and every later entry a constant; the default table's constants are
read off. -/
theorem writePolicyOfEachEntry : Obligations.WritePolicyOfEachEntry := by
  intro s i r hw hr
  refine ⟨?_, ?_, fun hd => ?_⟩
  · rintro rfl
    exact writableBy_fwRegister _ (RegionTable.policy_of_first hw hr)
  · intro hi
    obtain ⟨k, rfl⟩ := Nat.exists_eq_add_of_lt hi
    obtain ⟨b, hb⟩ := RegionTable.policy_of_later hw hr
    exact ⟨b, hb, writableBy_constant _ hb⟩
  · rw [hd] at hr
    constructor
    · rintro (rfl | rfl) <;> cases hr <;> rfl
    · rintro rfl
      cases hr
      rfl

/-- Settles O29: by the effect of each request on the mode registers, and the statuses that each request answers. -/
theorem romFaultIsSetByRomErrorsAndClearedByResetOnly :
    Obligations.RomFaultIsSetByRomErrorsAndClearedByResetOnly := by
  refine ⟨rfl, fun i s t h => ⟨fun hne => ?_, romFault_of_reportsRomError h⟩, fun s t h hs ht => ?_, fun s hs => ?_⟩
  · cases exec_modeStep h with
    | romFailed hm he => exact ⟨⟨_, rfl⟩, congrArg Mode.romFault hm, he⟩
    | kept hm => exact absurd (congrArg Mode.romFault hm) hne
    | locked _ hm => exact absurd (congrArg Mode.romFault hm) hne
    | started _ hm => exact absurd (congrArg Mode.romFault hm) hne
  · obtain hm | ⟨hreset, -⟩ | ⟨i, -, hm⟩ := step_mode_cases h
    · have hkept : t.romFault = true := (congrArg Mode.romFault hm).trans hs
      exact absurd hkept (by simp [ht])
    · exact hreset
    · exact absurd (hm.romFault_stays hs) (by simp [ht])
  · cases hp : s.phase <;> simp [exec, execStart, hp, hs, State.answer]

/-- Settles O32: of the effects on the mode registers, only FW_INSTALL's and a reset's change `fw_writable`. -/
theorem firmwareLockIsSetByFwInstallAndClearedByResetOnly :
    Obligations.FirmwareLockIsSetByFwInstallAndClearedByResetOnly := by
  refine ⟨rfl, fun s t h hne => ?_⟩
  obtain hm | ⟨hreset, hm⟩ | ⟨i, hi, hm⟩ := step_mode_cases h
  · exact absurd (congrArg Mode.fwWritable hm) hne
  · have ht : t.fwWritable = true := congrArg Mode.fwWritable hm
    exact .inr ⟨hreset, by simpa [ht] using hne.symm, ht⟩
  · cases hm with
    | locked hw ht => exact .inl ⟨hi, hw, congrArg Mode.fwWritable ht⟩
    | kept ht => exact absurd (congrArg Mode.fwWritable ht) hne
    | started _ ht => exact absurd (congrArg Mode.fwWritable ht) hne
    | romFailed ht _ => exact absurd (congrArg Mode.fwWritable ht) hne

/-- Settles O33: of the effects on the mode registers, only START's and a reset's change `phase`. -/
theorem phaseIsChangedByStartAndResetOnly : Obligations.PhaseIsChangedByStartAndResetOnly := by
  refine ⟨rfl, rfl, rfl, fun s t h hne => ?_⟩
  obtain hm | ⟨hreset, hm⟩ | ⟨i, hi, hm⟩ := step_mode_cases h
  · exact absurd (congrArg Mode.phase hm) hne
  · have ht : t.phase = .boot := congrArg Mode.phase hm
    exact .inr ⟨hreset, Phase.eq_run_of_ne_boot (by simpa [ht] using hne.symm), ht⟩
  · cases hm with
    | started hp ht => exact .inl ⟨hi, hp, congrArg Mode.phase ht⟩
    | kept ht => exact absurd (congrArg Mode.phase ht) hne
    | locked _ ht => exact absurd (congrArg Mode.phase ht) hne
    | romFailed ht _ => exact absurd (congrArg Mode.phase ht) hne

/-- Settles O51: both outputs are comparisons of `dma_state` with one value. -/
theorem levelOutputsFollowTheArbiter : Obligations.LevelOutputsFollowTheArbiter :=
  fun _ => ⟨beq_iff_eq, beq_iff_eq⟩

end Sys2Proof.Machine
end

section
/-! PROOFS. The backing store (20_memory.md). -/

namespace Sys2Proof.Machine

/-- A write changes the backing store only (R53). -/
theorem State.store_frame (s : State) (a : Addr) (v : Byte) : s.store a v = { s with mem := (s.store a v).mem } := rfl

/-- Settles O13: a read of the written address, a read of any other, and the frame of the write; the canonical form is
needed for the first, since an entry out of order would still be read after a write of 0x00. -/
theorem memWriteReplacesExactlyOneByte : Obligations.MemWriteReplacesExactlyOneByte :=
  fun s a v h =>
    ⟨State.load_store_same h a v, fun _ hb => State.load_store_other s hb v, State.store_frame s a v⟩

end Sys2Proof.Machine
end

section
/-! PROOFS. The status codes (30_encoding.md R86). -/

namespace Sys2Proof.Machine

/-- The codes 0xB to 0xF are never produced (R86). -/
theorem Status.code_toNat_le (st : Status) : st.code.toNat ≤ 0xA := by
  cases st <;> decide

/-- Settles O53: each code is the table's entry, and NO_EFFECT's is the greatest. -/
theorem statusCodes : Obligations.StatusCodes :=
  ⟨rfl, rfl, rfl, rfl, rfl, rfl, rfl, rfl, rfl, rfl, rfl, Status.code_toNat_le⟩

end Sys2Proof.Machine
end

section
/-! PROOFS. The address decoder's requests (40_decoder.md): what the scan answers outside every region, RESOLVE and
REGION_QUERY. -/

namespace Sys2Proof

theorem Region.holds_eq_true_iff (r : Region) (a : Addr) :
    r.holds a = true ↔ r.base.toNat ≤ a.toNat ∧ a.toNat ≤ r.limit.toNat := by
  simp [Region.holds, BitVec.le_def]

/-- The 17 bits hold the size of every region, that of the whole address space included (R112). -/
theorem Region.toNat_capacity (r : Region) (h : r.base ≤ r.limit) : r.capacity.toNat = Machine.sizeOfRegion r := by
  have hle : r.base.toNat ≤ r.limit.toNat := h
  have hlt : r.limit.toNat < 65536 := r.limit.isLt
  simp only [Region.capacity, Machine.sizeOfRegion]
  bv_omega

end Sys2Proof

namespace Sys2Proof.Machine

/-! ### Outside every region -/

/-- No entry reaches the policy check, so neither the kind nor `fw_writable` matters (R114). -/
theorem State.decodeAddr_of_no_region_holds {s : State} {a : Addr} (kind : AccessKind)
    (h : ∀ r ∈ s.table, r.holds a = false) : s.decodeAddr a kind = .fail .unmappedAddress noRegion := by
  obtain ⟨-, he⟩ | ⟨j, r, hj, hr, -⟩ := decodeFrom_cases s.fwWritable a kind 0 s.table
  · exact he
  · exact absurd hr (by simp [h r (List.mem_of_getElem? hj)])

/-- Settles O15: the bounds say that no entry holds the address. -/
theorem addressOutsideEveryRegionIsUnmapped : Obligations.AddressOutsideEveryRegionIsUnmapped := by
  intro s a kind hout
  refine State.decodeAddr_of_no_region_holds kind fun r hr => Bool.eq_false_iff.mpr fun hh => ?_
  have hin := (r.holds_eq_true_iff a).mp hh
  have := hout r hr
  omega

/-! ### RESOLVE -/

theorem execResolve_of_ok {kind : AccessKind} {a o : Addr} {s : State} {g : RegionId}
    (h : s.decodeAddr a kind = .ok o g) :
    execResolve kind a s = .next (s.answer { status := .ok, region := g, addr := o }) := by
  simp [execResolve, h]

theorem execResolve_of_fail {kind : AccessKind} {a : Addr} {s : State} {f : AccessFault} {g : RegionId}
    (h : s.decodeAddr a kind = .fail f g) : execResolve kind a s = .next (s.answer (accessFailure f g a)) := by
  simp [execResolve, h]

/-- Settles O18: no case asks for `dma_state`, and each answer changes the response output only. -/
theorem resolveAnswersTheDecoder : Obligations.ResolveAnswersTheDecoder :=
  fun _ _ _ => ⟨rfl, fun _ h => execResolve_of_ok h, fun _ _ h => execResolve_of_fail h⟩

/-! ### REGION_QUERY -/

theorem policyByte_eq (w : Bool) : policyByte w = if w = true then 0x01#8 else 0x00#8 := by
  cases w <;> rfl

theorem execRegionQuery_of_entry {idx : Byte} {s : State} {r : Region} (h : s.region? idx = some r) :
    execRegionQuery idx s = .next (s.answer
      { status := .ok, region := regionId idx.toNat, addr := r.base, addr2 := r.limit, max := r.capacity,
        data := policyByte (writableBy s.fwWritable r) }) := by
  simp [execRegionQuery, h]

theorem execRegionQuery_of_no_entry {idx : Byte} {s : State} (h : s.region? idx = none) :
    execRegionQuery idx s = .next (s.answer { status := .illegalRequest }) := by
  simp [execRegionQuery, h]

/-- Settles O19: the capacity does not wrap, by WF2, and the index names no entry from the table's length on. -/
theorem regionQueryAnswersTheEntry : Obligations.RegionQueryAnswersTheEntry := by
  refine fun idx s => ⟨rfl, fun r hw hr => ?_, fun hlen => ?_⟩
  · obtain ⟨-, hle, -⟩ := hw
    refine ⟨r.capacity, r.toNat_capacity (hle r (List.mem_of_getElem? hr)), ?_⟩
    rw [← policyByte_eq]
    exact execRegionQuery_of_entry hr
  · exact execRegionQuery_of_no_entry (List.getElem?_eq_none hlen)

end Sys2Proof.Machine
end

section
/-! PROOFS. The CPU's byte accesses (41_access.md): what READ and WRITE answer in each of their three cases, and the
arbitration before the decoder. -/

namespace Sys2Proof.Machine

section Access
variable {v : Byte} {a o : Addr} {s : State} {f : AccessFault} {g : RegionId}

/-! ### The three cases of an access: the bus is taken, the decoder fails, the byte is reached -/

theorem execRead_of_active (h : s.dmaState = .active) :
    execRead a s = .next (s.answer { status := .busBusy, addr := a }) :=
  if_pos h

theorem execRead_of_ok (hd : s.dmaState ≠ .active) (h : s.decodeAddr a .read = .ok o g) :
    execRead a s = .next (s.answer { status := .ok, data := s.load o, region := g, addr := a }) := by
  simp [execRead, hd, h]

theorem execRead_of_fail (hd : s.dmaState ≠ .active) (h : s.decodeAddr a .read = .fail f g) :
    execRead a s = .next (s.answer (accessFailure f g a)) := by
  simp [execRead, hd, h]

theorem execWrite_of_active (h : s.dmaState = .active) :
    execWrite v a s = .next (s.answer { status := .busBusy, addr := a }) :=
  if_pos h

theorem execWrite_of_ok (hd : s.dmaState ≠ .active) (h : s.decodeAddr a .write = .ok o g) :
    execWrite v a s = .next ((s.store o v).answer { status := .ok, region := g, addr := a }) := by
  simp [execWrite, hd, h]

theorem execWrite_of_fail (hd : s.dmaState ≠ .active) (h : s.decodeAddr a .write = .fail f g) :
    execWrite v a s = .next (s.answer (accessFailure f g a)) := by
  simp [execWrite, hd, h]

/-! ### The arbitration: BUS_BUSY comes from `dma_state` only -/

theorem State.busOwner_of_ne_active (hd : s.dmaState ≠ .active) : s.busOwner = .cpu := if_neg hd

theorem AccessFault.status_ne_busBusy (f : AccessFault) : f.status ≠ .busBusy := by
  cases f <;> decide

/-- A request that answers another status does not show BUS_BUSY. -/
theorem status_ne_busBusy_of_answer {t : State} {r : Response} {out : Host.Outcome State Fault Refusal}
    (hr : r.status ≠ .busBusy) (ho : out = .next (s.answer r)) (h : out = .next t) : t.status? ≠ some .busBusy := by
  obtain rfl := Host.Outcome.next.inj (ho.symm.trans h)
  simpa [State.status?] using hr

theorem execRead_status_ne_busBusy {t : State} (hd : s.dmaState ≠ .active) (h : execRead a s = .next t) :
    t.status? ≠ some .busBusy := by
  cases hdec : s.decodeAddr a .read with
  | ok o g => exact status_ne_busBusy_of_answer (by simp) (execRead_of_ok hd hdec) h
  | fail f g => exact status_ne_busBusy_of_answer f.status_ne_busBusy (execRead_of_fail hd hdec) h

theorem execWrite_status_ne_busBusy {t : State} (hd : s.dmaState ≠ .active) (h : execWrite v a s = .next t) :
    t.status? ≠ some .busBusy := by
  cases hdec : s.decodeAddr a .write with
  | ok o g => exact status_ne_busBusy_of_answer (by simp) (execWrite_of_ok hd hdec) h
  | fail f g => exact status_ne_busBusy_of_answer f.status_ne_busBusy (execWrite_of_fail hd hdec) h

end Access

/-! ### The obligations -/

/-- Settles O20: no case changes more than the response output. -/
theorem readAnswersTheByte : Obligations.ReadAnswersTheByte :=
  fun _ _ => ⟨rfl, execRead_of_active, fun _ hd h => execRead_of_ok hd h, fun _ _ hd h => execRead_of_fail hd h⟩

/-- Settles O21: the state of a successful WRITE is that of one store, so the store's laws give its byte and its frame. -/
theorem writeStoresItsByteOnSuccessOnly : Obligations.WriteStoresItsByteOnSuccessOnly :=
  fun v a s =>
    ⟨rfl, execWrite_of_active, fun _ _ hd h => execWrite_of_fail hd h, fun _ hm hd h =>
      ⟨_, execWrite_of_ok hd h, rfl, State.load_store_same hm a v, fun _ hb => State.load_store_other s hb v⟩⟩

/-- Settles O22: in DmaActive the decoder is not asked; in every other state each answer is the decoder's failure or OK. -/
theorem cpuAccessIsRefusedExactlyWhileDmaActive : Obligations.CpuAccessIsRefusedExactlyWhileDmaActive := by
  rintro s t _ a v (rfl | rfl) h
  · exact ⟨fun hd => Host.Outcome.next.inj (h.symm.trans (execRead_of_active hd)),
      fun hd => ⟨State.busOwner_of_ne_active hd, execRead_status_ne_busBusy hd h⟩⟩
  · exact ⟨fun hd => Host.Outcome.next.inj (h.symm.trans (execWrite_of_active hd)),
      fun hd => ⟨State.busOwner_of_ne_active hd, execWrite_status_ne_busBusy hd h⟩⟩

end Sys2Proof.Machine
end

section
/-! PROOFS. The end of the boot phase (43_firmware.md): what START answers in each of its cases. -/

namespace Sys2Proof.Machine

section Start
variable {s : State}

theorem execStart_of_boot (hp : s.phase = .boot) (hr : s.romFault = false) :
    execStart s = .next (State.answer { s with phase := .run } { status := .ok }) := by
  simp [execStart, respond, hp, hr]

theorem execStart_of_run (hp : s.phase = .run) : execStart s = .next (s.answer { status := .illegalRequest }) :=
  if_pos (by simp [hp])

/-- In either phase: the refusal of a second START and the one after a failed ROM_LOAD give the same answer. -/
theorem execStart_of_romFault (hr : s.romFault = true) :
    execStart s = .next (s.answer { status := .illegalRequest }) := by
  cases hp : s.phase with
  | boot => simp [execStart, raise, hp, hr]
  | run => exact execStart_of_run hp

end Start

/-- Settles O31: no case asks for `dma_state`, and the two refusals give one answer. -/
theorem startEndsTheBootPhase : Obligations.StartEndsTheBootPhase :=
  fun _ => ⟨rfl, execStart_of_boot, fun h => h.elim execStart_of_run execStart_of_romFault⟩

end Sys2Proof.Machine
end

section
/-! PROOFS. The bus arbiter and the DMA engine (44_dma_arbiter.md): what each request of the DMA engine answers in each of its
cases, and everything a request or a step can do to `dma_state`. -/

namespace Sys2Proof.Machine

section Dma
variable {s t : State} {dir : AccessKind} {pending : Byte} {len : DmaLength} {start : Addr} {f : AccessFault}
  {g : RegionId}

/-! ### DMA_CONFIG -/

/-- The 17 bits of the range check hold the sum, so it is the check in unbounded integers. For a length of 0 it is not:
there the 17 bits wrap at address 0. -/
theorem dmaOutOfRange_iff (h : 1 ≤ len.toNat) :
    dmaOutOfRange start len = true ↔ 0xFFFF < start.toNat + len.toNat - 1 := by
  have hstart : start.toNat < 65536 := start.isLt
  have hlen : len.toNat < 65536 := len.isLt
  simp only [dmaOutOfRange, gt_iff_lt, decide_eq_true_eq]
  bv_omega

theorem execDmaConfig_of_ne_idle (hs : s.dmaState ≠ .idle) :
    execDmaConfig dir pending len start s = .next (s.answer { status := .busBusy }) :=
  if_pos hs

theorem execDmaConfig_of_zero (hs : s.dmaState = .idle) (hlen : len = 0x0000#16) :
    execDmaConfig dir pending len start s = .next (s.answer { status := .ok }) := by
  simp [execDmaConfig, hs, hlen]

theorem ne_zero_of_one_le_toNat (h : 1 ≤ len.toNat) : len ≠ 0x0000#16 := by
  rintro rfl
  simp at h

theorem execDmaConfig_of_outOfRange (hs : s.dmaState = .idle) (hlen : 1 ≤ len.toNat)
    (hr : 0xFFFF < start.toNat + len.toNat - 1) :
    execDmaConfig dir pending len start s =
      .next (s.answer { status := .dmaOutOfRange, addr := start, count := lengthCount len }) := by
  simp [execDmaConfig, hs, ne_zero_of_one_le_toNat hlen, (dmaOutOfRange_iff hlen).mpr hr]

theorem execDmaConfig_of_inRange (hs : s.dmaState = .idle) (hlen : 1 ≤ len.toNat)
    (hr : start.toNat + len.toNat - 1 ≤ 0xFFFF) :
    execDmaConfig dir pending len start s = .next ((s.configureDma dir pending len start).answer
      { status := .ok, addr := start, count := lengthCount len }) := by
  have hin : ¬dmaOutOfRange start len = true := fun h => Nat.not_lt.mpr hr ((dmaOutOfRange_iff hlen).mp h)
  simp [execDmaConfig, hs, ne_zero_of_one_le_toNat hlen, hin]

/-! ### DMA_GRANT and DMA_ACK -/

theorem execDmaGrant_of_requested (hs : s.dmaState = .requested) :
    execDmaGrant s = .next (State.answer { s with dmaState := .active } { status := .ok }) :=
  if_neg (not_not_intro hs)

theorem execDmaGrant_of_ne_requested (hs : s.dmaState ≠ .requested) :
    execDmaGrant s = .next (s.answer { status := .noEffect }) :=
  if_pos hs

theorem execDmaAck_of_complete (hs : s.dmaState = .complete) :
    execDmaAck s = .next (State.answer { s with dmaState := .idle } { status := .ok }) :=
  if_neg (not_not_intro hs)

theorem execDmaAck_of_ne_complete (hs : s.dmaState ≠ .complete) :
    execDmaAck s = .next (s.answer { status := .noEffect }) :=
  if_pos hs

/-! ### DMA_STATUS -/

/-- The fields of the data byte of DMA_STATUS, by their weights. -/
theorem toNat_statusFields : ∀ (valid : Bool) (d : BitVec 1) (code : BitVec 2),
    (0x0#4 ++ BitVec.ofBool valid ++ d ++ code).toNat = 8 * valid.toNat + 4 * d.toNat + code.toNat := by
  decide

/-! ### DMA_STEP -/

theorem execDmaStep_of_ne_active (hs : s.dmaState ≠ .active) :
    execDmaStep s = .next (s.answer { status := .noEffect }) :=
  if_pos hs

theorem execDmaStep_of_fail (hs : s.dmaState = .active) (h : s.decodeAddr s.dmaStart s.dmaDir = .fail f g) :
    execDmaStep s = abort s.dmaStart f g s := by
  cases hd : s.dmaDir <;> simp [execDmaStep, hs, hd, hd ▸ h]

/-- A moved byte ends the transfer exactly when it was the last one (R175, R176). -/
theorem State.advanceDma_dmaState (s : State) (a : Addr) :
    (s.advanceDma a).dmaState = if s.dmaLen = 1#16 then .complete else s.dmaState := by
  obtain ⟨hlen, h⟩ | ⟨hlen, h⟩ := s.advanceDma_cases a
  · rw [h, if_pos hlen, State.completeDma_dmaState]
  · rw [h, if_neg hlen]

/-- Everything a DMA_STEP can do to `dma_state`, with the status it answers. -/
inductive DmaStepMove (s t : State) : Prop
  | noEffect (hs : s.dmaState ≠ .active) (ht : t.dmaState = s.dmaState) : DmaStepMove s t
  | moved {g : RegionId} (hs : s.dmaState = .active) (hdec : s.decodeAddr s.dmaStart s.dmaDir = .ok s.dmaStart g)
      (ht : t.dmaState = if s.dmaLen = 1#16 then .complete else .active) (hst : t.status? = some .ok) : DmaStepMove s t
  | aborted {f : AccessFault} {g : RegionId} (hs : s.dmaState = .active)
      (hdec : s.decodeAddr s.dmaStart s.dmaDir = .fail f g) (ht : t.dmaState = .idle)
      (hst : t.status? = some .dmaAborted) : DmaStepMove s t

/-- The state of a request whose outcome is known. -/
theorem eq_answer_of_next {u : State} {r : Response} {o : Host.Outcome State Fault Refusal} (h : o = .next t)
    (hu : o = .next (u.answer r)) : t = u.answer r :=
  Host.Outcome.next.inj (h.symm.trans hu)

theorem execDmaStep_move (h : execDmaStep s = .next t) : DmaStepMove s t := by
  obtain ⟨hs, hr⟩ | ⟨hs, f, g, r, hdec, hst, hr⟩ | ⟨hs, hd, g, r, hdec, hst, hr⟩ | ⟨hs, hd, g, r, hdec, hst, hr⟩ :=
    execDmaStep_cases s <;> obtain rfl := eq_answer_of_next h hr
  · exact .noEffect hs rfl
  · exact .aborted hs hdec rfl (congrArg some hst)
  · refine .moved hs (hd ▸ hdec) ?_ (congrArg some hst)
    rw [State.answer_dmaState, State.advanceDma_dmaState, State.store_dmaLen, State.store_dmaState, hs]
  · refine .moved hs (hd ▸ hdec) ?_ (congrArg some hst)
    rw [State.answer_dmaState, State.advanceDma_dmaState, hs]

/-! ### Everything a request can do to `dma_state` (R170) -/

theorem formatChars_dmaState (base : Addr) (cs : List Byte) (i : Nat) (acc : Byte) (s : State) :
    (formatChars base cs i acc s).1.dmaState = s.dmaState := by
  rw [formatChars_frame]

theorem storeBytes_dmaState (a : Addr) (vs : List Byte) (s : State) : (storeBytes a vs s).dmaState = s.dmaState := by
  rw [storeBytes_frame]

theorem dmaState_eq_of_next_answer {u : State} {r : Response} {o : Host.Outcome State Fault Refusal} {d : DmaState}
    (h : o = .next t) (hu : o = .next (u.answer r)) (hd : u.dmaState = d) : t.dmaState = d :=
  (congrArg State.dmaState (eq_answer_of_next h hu)).trans hd

theorem execRomLoad_dmaState {idx : Byte} (h : execRomLoad idx s = .next t) : t.dmaState = s.dmaState := by
  obtain ⟨r, -, hr⟩ | ⟨-, -, q, -, -, ⟨r, -, hr⟩ | ⟨bad, u, r, hf, -, -, hr⟩ | ⟨u, r, hf, -, -, hr⟩⟩ :=
    execRomLoad_cases idx s <;> refine dmaState_eq_of_next_answer h hr ?_
  · rfl
  · rfl
  · simpa [hf] using formatChars_dmaState q.base s.image.chars 0 0x00#8 s
  · simpa [hf] using formatChars_dmaState q.base s.image.chars 0 0x00#8 s

theorem execFwInstall_dmaState (h : execFwInstall s = .next t) : t.dmaState = s.dmaState := by
  obtain ⟨r, -, hr⟩ | ⟨-, -, -, r, -, hr⟩ := execFwInstall_cases s
  · exact dmaState_eq_of_next_answer h hr rfl
  · exact dmaState_eq_of_next_answer h hr (storeBytes_dmaState ..)

theorem execDmaConfig_listed (h : execDmaConfig dir pending len start s = .next t) :
    t.dmaState = s.dmaState ∨ s.ListedTransition (.dmaConfig dir pending len start) t := by
  obtain ⟨r, hr⟩ | ⟨hs, hlen, hrange, r, -, hr⟩ := execDmaConfig_cases dir pending len start s
  · exact .inl (dmaState_eq_of_next_answer h hr rfl)
  · have hpos : 1 ≤ len.toNat := by bv_omega
    have hin : ¬0xFFFF < start.toNat + len.toNat - 1 := by
      rw [← dmaOutOfRange_iff hpos, hrange]
      decide
    exact .inr (.inl ⟨hs, dmaState_eq_of_next_answer h hr rfl, dir, pending, len, start, rfl, hpos, Nat.not_lt.mp hin⟩)

theorem execDmaStep_listed (h : execDmaStep s = .next t) :
    t.dmaState = s.dmaState ∨ s.ListedTransition .dmaStep t := by
  cases execDmaStep_move h with
  | noEffect _ ht => exact .inl ht
  | @moved g hs hdec ht _ =>
    by_cases hlen : s.dmaLen = 1#16
    · exact .inr (.inr (.inr (.inl ⟨hs, by rw [ht, if_pos hlen], rfl, hlen, g, hdec⟩)))
    · exact .inl (by rw [ht, if_neg hlen, hs])
  | @aborted f g hs hdec ht _ => exact .inr (.inr (.inr (.inr (.inl ⟨hs, ht, rfl, f, g, hdec⟩))))

/-- A request keeps `dma_state`, or makes one of the listed transitions. -/
theorem exec_listed {i : Instr} (h : exec i s = .next t) : t.dmaState = s.dmaState ∨ s.ListedTransition i t := by
  cases i with
  | resolve kind a =>
    obtain ⟨r, hr⟩ := execResolve_next kind a s
    exact .inl (dmaState_eq_of_next_answer h hr rfl)
  | read a =>
    obtain ⟨r, hr⟩ := execRead_next a s
    exact .inl (dmaState_eq_of_next_answer h hr rfl)
  | write v a =>
    obtain ⟨r, -, hr⟩ | ⟨-, g, r, -, -, hr⟩ := execWrite_cases v a s
    · exact .inl (dmaState_eq_of_next_answer h hr rfl)
    · exact .inl (dmaState_eq_of_next_answer h hr rfl)
  | dmaConfig d p n a => exact execDmaConfig_listed h
  | dmaLoadPending v => exact .inl (dmaState_eq_of_next_answer h (respond_eq ..) rfl)
  | dmaReadPending => exact .inl (dmaState_eq_of_next_answer h (respond_eq ..) rfl)
  | dmaGrant =>
    obtain ⟨-, hr⟩ | ⟨hs, hr⟩ := execDmaGrant_cases s
    · exact .inl (dmaState_eq_of_next_answer h hr rfl)
    · exact .inr (.inr (.inl ⟨hs, dmaState_eq_of_next_answer h hr rfl, rfl⟩))
  | dmaStep => exact execDmaStep_listed h
  | dmaAck =>
    obtain ⟨-, hr⟩ | ⟨hs, hr⟩ := execDmaAck_cases s
    · exact .inl (dmaState_eq_of_next_answer h hr rfl)
    · exact .inr (.inr (.inr (.inr (.inr ⟨hs, dmaState_eq_of_next_answer h hr rfl, rfl⟩))))
  | dmaStatus => exact .inl (dmaState_eq_of_next_answer h (respond_eq ..) rfl)
  | romLoad idx => exact .inl (execRomLoad_dmaState h)
  | fwInstall => exact .inl (execFwInstall_dmaState h)
  | start =>
    obtain ⟨r, -, hr⟩ | ⟨-, -, hr⟩ := execStart_cases s
    · exact .inl (dmaState_eq_of_next_answer h hr rfl)
    · exact .inl (dmaState_eq_of_next_answer h hr rfl)
  | regionQuery idx =>
    obtain ⟨r, hr⟩ := execRegionQuery_next idx s
    exact .inl (dmaState_eq_of_next_answer h hr rfl)

/-- Of the listed transitions, only DMA_STEP's start in DmaActive. -/
theorem State.ListedTransition.eq_dmaStep_of_active {i : Instr} (h : s.ListedTransition i t)
    (hs : s.dmaState = .active) : i = .dmaStep := by
  obtain ⟨hi, -⟩ | ⟨hr, -⟩ | ⟨-, -, hstep, -⟩ | ⟨-, -, hstep, -⟩ | ⟨hc, -⟩ := h
  · exact absurd (hi.symm.trans hs) (by decide)
  · exact absurd (hr.symm.trans hs) (by decide)
  · exact hstep
  · exact hstep
  · exact absurd (hc.symm.trans hs) (by decide)

/-- No request but DMA_STEP ends an active transfer (R180). -/
theorem eq_dmaStep_of_exec_stops {i : Instr} (hs : s.dmaState = .active) (h : exec i s = .next t)
    (ht : t.dmaState ≠ .active) : i = .dmaStep := by
  obtain hkept | hlisted := exec_listed h
  · exact absurd (hkept.trans hs) ht
  · exact hlisted.eq_dmaStep_of_active hs

theorem eq_afterReset_of_step {rest : List PortEvent} (h : step s = .next t) (hin : s.inbox = .reset :: rest) :
    t = s.afterReset rest := by
  unfold step at h
  split at h
  · simpa [servePort, hin] using h.symm
  · cases h

end Dma

/-! ### The statements -/

/-- Settles O37: the range check of the 17 bits is the one in unbounded integers, as the length is at least 1. -/
theorem dmaConfigLoadsTheTransfer : Obligations.DmaConfigLoadsTheTransfer :=
  fun _ _ _ _ _ =>
    ⟨rfl, execDmaConfig_of_ne_idle, execDmaConfig_of_zero, execDmaConfig_of_outOfRange, execDmaConfig_of_inRange⟩

/-- Settles O44: each request keeps `dma_state` or makes a listed transition, and the request of each listed condition is
known with its outcome. -/
theorem arbiterMovesOnlyByTheListedTransitions : Obligations.ArbiterMovesOnlyByTheListedTransitions := by
  refine ⟨fun i s t h hne => (exec_listed h).resolve_left hne,
    fun dir pending len start s t h hs hlen hr => dmaState_eq_of_next_answer h (execDmaConfig_of_inRange hs hlen hr) rfl,
    fun s t h hs => dmaState_eq_of_next_answer h (execDmaGrant_of_requested hs) rfl,
    fun s t g h hs hok => ?_,
    fun s t f g h hs hfail => dmaState_eq_of_next_answer h (execDmaStep_of_fail hs hfail) rfl,
    fun s t h hs => dmaState_eq_of_next_answer h (execDmaAck_of_complete hs) rfl,
    fun s t h ⟨rest, hin⟩ => congrArg State.dmaState (eq_afterReset_of_step h hin),
    fun s => rfl⟩
  cases execDmaStep_move h with
  | noEffect hn _ => exact absurd hs hn
  | moved _ _ ht _ => exact ht
  | aborted _ hfail _ _ => exact absurd (hok.symm.trans hfail) nofun

/-- Settles O45: of the listed transitions only DMA_STEP's leave DmaActive, and a DMA_STEP leaves it by the last byte or by an
abort. -/
theorem noRequestStopsAnActiveTransfer : Obligations.NoRequestStopsAnActiveTransfer := by
  refine ⟨fun i s t hs h ht => ?_, fun _ _ _ _ s hs => execDmaConfig_of_ne_idle (by simp [hs]),
    fun s hs => execDmaAck_of_ne_complete (by simp [hs]), fun s t hs h ht => ?_⟩
  · obtain rfl := eq_dmaStep_of_exec_stops hs h ht
    refine ⟨rfl, ?_⟩
    cases execDmaStep_move h with
    | noEffect hn _ => exact absurd hs hn
    | moved _ _ hmove hst =>
      by_cases hlen : s.dmaLen = 1#16
      · exact .inl ⟨hlen, by rw [hmove, if_pos hlen], hst⟩
      · exact absurd (by rw [hmove, if_neg hlen]) ht
    | @aborted f g _ hdec hidle hst => exact .inr ⟨hidle, hst, f, g, hdec⟩
  · obtain rfl | ⟨hreset, -⟩ | ⟨i, image, rest, hi, hx⟩ | ⟨image, rest, rfl⟩ := step_next_cases h
    · exact absurd hs ht
    · exact .inr hreset
    · obtain rfl := eq_dmaStep_of_exec_stops (s := s.accept image rest) hs hx ht
      exact .inl hi
    · exact absurd hs ht

/-- Settles O38: neither request has a case that asks for `dma_state`. -/
theorem pendingByteIsLoadedAndRead : Obligations.PendingByteIsLoadedAndRead :=
  fun _ _ => ⟨rfl, rfl, rfl, rfl⟩

/-- Settles O39: each of the two requests has one state that it moves, and answers NO_EFFECT in the others. -/
theorem grantAndAckMoveTheArbiter : Obligations.GrantAndAckMoveTheArbiter :=
  fun _ =>
    ⟨rfl, rfl, execDmaGrant_of_requested, execDmaGrant_of_ne_requested, execDmaAck_of_complete,
      execDmaAck_of_ne_complete⟩

/-- Settles O40: the data byte is the model's, read by the weights of its fields. -/
theorem dmaStatusAnswersTheRegisters : Obligations.DmaStatusAnswersTheRegisters :=
  fun s => ⟨rfl, s.dmaStatusByte, rfl, toNat_statusFields s.dmaErrValid (bitOfKind s.dmaDir) s.dmaState.code⟩

/-- Settles O43: either direction aborts on its failed decode, and the abort writes the registers named. -/
theorem dmaStepAbortsOnADecodeFailure : Obligations.DmaStepAbortsOnADecodeFailure :=
  fun _ => ⟨rfl, execDmaStep_of_ne_active, fun _ _ hs h => execDmaStep_of_fail hs h⟩

end Sys2Proof.Machine
end

section
/-! PROOFS. NO_EFFECT and BUS_BUSY over all requests (60_exceptions.md R212, R213): the two statuses that only the state of
the arbiter answers, and the requests that answer them. -/

namespace Sys2Proof.Machine

/-! ### The two statuses and their conditions -/

/-- The two statuses that report a request outside the arbiter's state it needs (R212, R213). -/
def Status.isArbiterRefusal : Status → Bool
  | .busBusy | .noEffect => true
  | _ => false

theorem AccessFault.status_isArbiterRefusal (f : AccessFault) : f.status.isArbiterRefusal = false := by
  cases f <;> rfl

/-- The strobes outside their states (R212). -/
def State.IgnoresStrobe (s : State) (i : Instr) : Prop :=
  (i = .dmaGrant ∧ s.dmaState ≠ .requested) ∨ (i = .dmaStep ∧ s.dmaState ≠ .active) ∨
  (i = .dmaAck ∧ s.dmaState ≠ .complete)

/-- The two cases of R213: the bus is taken from the requests that need it, or the DMA engine from a DMA_CONFIG. -/
def State.TakenFrom (s : State) (i : Instr) : Prop :=
  (s.dmaState = .active ∧ ((∃ a, i = .read a) ∨ (∃ v a, i = .write v a) ∨ (∃ idx, i = .romLoad idx) ∨ i = .fwInstall)) ∨
  (s.dmaState ≠ .idle ∧ ∃ dir pending len start, i = .dmaConfig dir pending len start)

/-- Everything a request can answer, as far as the arbiter decides it: NO_EFFECT to an ignored strobe, BUS_BUSY while the
bus or the engine is taken, both with no state change, or another status. -/
inductive ArbiterAnswer (s t : State) (i : Instr) : Prop
  | noEffect (hi : s.IgnoresStrobe i) (ht : t = s.answer { status := .noEffect }) : ArbiterAnswer s t i
  | busBusy {r : Response} (hi : s.TakenFrom i) (hr : r.status = .busBusy) (ht : t = s.answer r) : ArbiterAnswer s t i
  | other {u : State} {r : Response} (hr : r.status.isArbiterRefusal = false) (ht : t = u.answer r) : ArbiterAnswer s t i

section Answers
variable {s t u : State} {r : Response} {i : Instr} {o : Host.Outcome State Fault Refusal}

theorem status?_of_next_answer (h : o = .next t) (hu : o = .next (u.answer r)) : t.status? = some r.status :=
  congrArg State.status? (eq_answer_of_next h hu)

theorem ArbiterAnswer.of_noEffect (h : ArbiterAnswer s t i) (hst : t.status? = some .noEffect) :
    s.IgnoresStrobe i ∧ t = s.answer { status := .noEffect } := by
  cases h with
  | noEffect hi ht => exact ⟨hi, ht⟩
  | busBusy _ hr ht => simp [ht, State.status?, hr] at hst
  | other hr ht =>
    obtain rfl := ht
    simp [Option.some.inj hst, Status.isArbiterRefusal] at hr

theorem ArbiterAnswer.of_busBusy (h : ArbiterAnswer s t i) (hst : t.status? = some .busBusy) :
    s.TakenFrom i ∧ s.SameButResponse t := by
  cases h with
  | noEffect _ ht => simp [ht, State.status?] at hst
  | busBusy hi _ ht => exact ⟨hi, by rw [ht]; rfl⟩
  | other hr ht =>
    obtain rfl := ht
    simp [Option.some.inj hst, Status.isArbiterRefusal] at hr

/-! ### What each request answers -/

theorem execResolve_arbiterAnswer {kind : AccessKind} {a : Addr} (h : execResolve kind a s = .next t) :
    ArbiterAnswer s t (.resolve kind a) := by
  cases hdec : s.decodeAddr a kind with
  | ok o g => exact .other rfl (eq_answer_of_next h (execResolve_of_ok hdec))
  | fail f g => exact .other f.status_isArbiterRefusal (eq_answer_of_next h (execResolve_of_fail hdec))

theorem execRegionQuery_arbiterAnswer {idx : Byte} (h : execRegionQuery idx s = .next t) :
    ArbiterAnswer s t (.regionQuery idx) := by
  cases hq : s.region? idx with
  | some q => exact .other rfl (eq_answer_of_next h (execRegionQuery_of_entry hq))
  | none => exact .other rfl (eq_answer_of_next h (execRegionQuery_of_no_entry hq))

theorem execRead_arbiterAnswer {a : Addr} (h : execRead a s = .next t) : ArbiterAnswer s t (.read a) := by
  by_cases hs : s.dmaState = .active
  · exact .busBusy (.inl ⟨hs, .inl ⟨a, rfl⟩⟩) rfl (eq_answer_of_next h (execRead_of_active hs))
  · cases hdec : s.decodeAddr a .read with
    | ok o g => exact .other rfl (eq_answer_of_next h (execRead_of_ok hs hdec))
    | fail f g => exact .other f.status_isArbiterRefusal (eq_answer_of_next h (execRead_of_fail hs hdec))

theorem execWrite_arbiterAnswer {v : Byte} {a : Addr} (h : execWrite v a s = .next t) :
    ArbiterAnswer s t (.write v a) := by
  by_cases hs : s.dmaState = .active
  · exact .busBusy (.inl ⟨hs, .inr (.inl ⟨v, a, rfl⟩)⟩) rfl (eq_answer_of_next h (execWrite_of_active hs))
  · cases hdec : s.decodeAddr a .write with
    | ok o g => exact .other rfl (eq_answer_of_next h (execWrite_of_ok hs hdec))
    | fail f g => exact .other f.status_isArbiterRefusal (eq_answer_of_next h (execWrite_of_fail hs hdec))

theorem execDmaConfig_arbiterAnswer {dir : AccessKind} {pending : Byte} {len : DmaLength} {start : Addr}
    (h : execDmaConfig dir pending len start s = .next t) : ArbiterAnswer s t (.dmaConfig dir pending len start) := by
  unfold execDmaConfig at h
  split at h
  next hs => exact .busBusy (.inr ⟨hs, dir, pending, len, start, rfl⟩) rfl (eq_answer_of_next h rfl)
  next => split_ifs at h <;> exact .other rfl (eq_answer_of_next h rfl)

theorem execDmaGrant_arbiterAnswer (h : execDmaGrant s = .next t) : ArbiterAnswer s t .dmaGrant := by
  obtain ⟨hs, hr⟩ | ⟨-, hr⟩ := execDmaGrant_cases s
  · exact .noEffect (.inl ⟨rfl, hs⟩) (eq_answer_of_next h hr)
  · exact .other rfl (eq_answer_of_next h hr)

theorem execDmaStep_arbiterAnswer (h : execDmaStep s = .next t) : ArbiterAnswer s t .dmaStep := by
  obtain ⟨hs, hr⟩ | ⟨-, f, g, r, -, hst, hr⟩ | ⟨-, -, g, r, -, hst, hr⟩ | ⟨-, -, g, r, -, hst, hr⟩ := execDmaStep_cases s
  · exact .noEffect (.inr (.inl ⟨rfl, hs⟩)) (eq_answer_of_next h hr)
  all_goals exact .other (by rw [hst]; rfl) (eq_answer_of_next h hr)

theorem execDmaAck_arbiterAnswer (h : execDmaAck s = .next t) : ArbiterAnswer s t .dmaAck := by
  obtain ⟨hs, hr⟩ | ⟨-, hr⟩ := execDmaAck_cases s
  · exact .noEffect (.inr (.inr ⟨rfl, hs⟩)) (eq_answer_of_next h hr)
  · exact .other rfl (eq_answer_of_next h hr)

/-- After its refusals, a ROM_LOAD does not ask for the arbiter's state. -/
theorem loadImage_next (idx : Byte) (q : Region) (s : State) :
    ∃ u r, loadImage idx q s = .next (State.answer u r) ∧ r.status.isArbiterRefusal = false := by
  unfold loadImage
  simp only
  split_ifs
  · exact ⟨_, _, rfl, rfl⟩
  · exact ⟨_, _, rfl, rfl⟩
  · split <;> exact ⟨_, _, rfl, rfl⟩

/-- The busy check of ROM_LOAD comes after its phase and index checks (R216). -/
theorem execRomLoad_of_active {idx : Byte} (hs : s.dmaState = .active) (hp : s.phase = .boot)
    (hidx : idx.toNat < s.table.length) : execRomLoad idx s = .next (s.answer { status := .busBusy }) := by
  simp [execRomLoad, State.region?, hs, hp, hidx]

theorem execRomLoad_arbiterAnswer {idx : Byte} (h : execRomLoad idx s = .next t) : ArbiterAnswer s t (.romLoad idx) := by
  unfold execRomLoad at h
  split at h
  · exact .other rfl (eq_answer_of_next h rfl)
  · split at h
    · exact .other rfl (eq_answer_of_next h rfl)
    · split_ifs at h with hs
      · exact .busBusy (.inl ⟨hs, .inr (.inr (.inl ⟨idx, rfl⟩))⟩) rfl (eq_answer_of_next h rfl)
      · exact .other rfl (eq_answer_of_next h rfl)
      · obtain ⟨u, r, hu, hr⟩ := loadImage_next idx _ s
        exact .other hr (eq_answer_of_next h hu)

/-- The busy check of FW_INSTALL comes after its phase and lock checks (R216). -/
theorem execFwInstall_of_active (hs : s.dmaState = .active) (hp : s.phase = .boot) (hf : s.fwWritable = true) :
    execFwInstall s = .next (s.answer { status := .busBusy }) := by
  simp [execFwInstall, hs, hp, hf]

theorem execFwInstall_arbiterAnswer (h : execFwInstall s = .next t) : ArbiterAnswer s t .fwInstall := by
  unfold execFwInstall at h
  split at h
  · exact .other rfl (eq_answer_of_next h rfl)
  · split at h
    · exact .other rfl (eq_answer_of_next h rfl)
    · split at h
      next hs => exact .busBusy (.inl ⟨hs, .inr (.inr (.inr rfl))⟩) rfl (eq_answer_of_next h rfl)
      next => exact .other rfl (eq_answer_of_next h rfl)

theorem execStart_arbiterAnswer (h : execStart s = .next t) : ArbiterAnswer s t .start := by
  unfold execStart at h
  split_ifs at h <;> exact .other rfl (eq_answer_of_next h rfl)

theorem exec_arbiterAnswer (h : exec i s = .next t) : ArbiterAnswer s t i := by
  cases i with
  | resolve kind a => exact execResolve_arbiterAnswer h
  | read a => exact execRead_arbiterAnswer h
  | write v a => exact execWrite_arbiterAnswer h
  | dmaConfig dir pending len start => exact execDmaConfig_arbiterAnswer h
  | dmaLoadPending v => exact .other rfl (eq_answer_of_next h (respond_eq ..))
  | dmaReadPending => exact .other rfl (eq_answer_of_next h (respond_eq ..))
  | dmaGrant => exact execDmaGrant_arbiterAnswer h
  | dmaStep => exact execDmaStep_arbiterAnswer h
  | dmaAck => exact execDmaAck_arbiterAnswer h
  | dmaStatus => exact .other rfl (eq_answer_of_next h (respond_eq ..))
  | romLoad idx => exact execRomLoad_arbiterAnswer h
  | fwInstall => exact execFwInstall_arbiterAnswer h
  | start => exact execStart_arbiterAnswer h
  | regionQuery idx => exact execRegionQuery_arbiterAnswer h

end Answers

/-! ### The statements -/

/-- Settles O58: of everything a request can answer, NO_EFFECT comes from an ignored strobe only, and each of the three
strobes answers it outside its state. -/
theorem noEffectExactlyForIdleStrobes : Obligations.NoEffectExactlyForIdleStrobes := by
  refine fun i s t h => ⟨⟨fun hst => ((exec_arbiterAnswer h).of_noEffect hst).1, ?_⟩,
    fun hst => ((exec_arbiterAnswer h).of_noEffect hst).2⟩
  rintro (⟨rfl, hs⟩ | ⟨rfl, hs⟩ | ⟨rfl, hs⟩)
  · exact status?_of_next_answer h (execDmaGrant_of_ne_requested hs)
  · exact status?_of_next_answer h (execDmaStep_of_ne_active hs)
  · exact status?_of_next_answer h (execDmaAck_of_ne_complete hs)

/-- Settles O59: of everything a request can answer, BUS_BUSY comes in the two cases of R213 only; and each request of those
cases answers it, ROM_LOAD and FW_INSTALL after their earlier checks. -/
theorem busBusyExactlyWhileTheBusOrTheDmaIsTaken : Obligations.BusBusyExactlyWhileTheBusOrTheDmaIsTaken := by
  refine fun i s t h => ⟨fun hst => ((exec_arbiterAnswer h).of_busBusy hst).symm, ?_, ?_, ?_, ?_⟩
  · rintro hs (⟨a, rfl⟩ | ⟨v, a, rfl⟩)
    · exact status?_of_next_answer h (execRead_of_active hs)
    · exact status?_of_next_answer h (execWrite_of_active hs)
  · rintro hs ⟨dir, pending, len, start, rfl⟩
    exact status?_of_next_answer h (execDmaConfig_of_ne_idle hs)
  · rintro hs hp ⟨idx, rfl, hidx⟩
    exact status?_of_next_answer h (execRomLoad_of_active hs hp hidx)
  · rintro hs hp hf rfl
    exact status?_of_next_answer h (execFwInstall_of_active hs hp hf)

end Sys2Proof.Machine
end

section
/-! PROOFS. The encoding of requests (30_encoding.md): decoder and encoder are inverse to each other, and the decoder
refuses exactly the words of R83. -/

namespace Sys2Proof

/-! ### Encode, then decode -/

/-- The decoder takes the fields of a request back to it. -/
theorem decodeFields_encodeFields (i : Instr) : decodeFields (encodeFields i) = .ok i := by
  cases i <;> simp [decodeFields, decodeOp, encodeFields, bareFields, ifUnusedZero]

/-- Settles O1: no field is lost in the word, and the fields of each request decode to it. -/
theorem decodeOfEncodeGivesBackTheRequest : Obligations.DecodeOfEncodeGivesBackTheRequest := fun i =>
  (decode_joinWord (encodeFields i)).trans (decodeFields_encodeFields i)

/-! ### Decode, then encode -/

/-- An accepted operation leaves no field but `rsv` unread: its operands are in place, and the others are 0. -/
theorem encodeFields_of_decodeOp {f : Req48} {i : Instr} (hrsv : f.rsv = 0#3) (h : decodeOp f = .ok i) :
    encodeFields i = f := by
  obtain ⟨op, d, rsv, data, len, addr⟩ := f
  obtain rfl : rsv = 0#3 := hrsv
  obtain rfl | rfl | rfl | rfl | rfl | rfl | rfl | rfl | rfl | rfl | rfl | rfl | rfl | rfl | rfl | rfl := opcode_cases op
  case inr.inr.inr.inl =>
    obtain rfl : Instr.dmaConfig (kindOfBit d) data len addr = i := Except.ok.inj h
    simp [encodeFields, bareFields]
  all_goals
    simp only [decodeOp, BitVec.toNat_ofNat, Nat.reducePow, Nat.reduceMod, ifUnusedZero_eq_ok, Bool.and_eq_true,
      beq_iff_eq, reduceCtorEq] at h
  all_goals
    obtain ⟨hzero, rfl⟩ := h
    simp [encodeFields, bareFields, hzero]

theorem encodeFields_of_decodeFields {f : Req48} {i : Instr} (h : decodeFields f = .ok i) : encodeFields i = f := by
  unfold decodeFields at h
  split at h
  next hrsv => exact encodeFields_of_decodeOp hrsv h
  next => cases h

/-- Settles O2: the accepted word's fields are those of its request, and the fields determine the word. -/
theorem acceptedWordIsTheWordOfItsRequest : Obligations.AcceptedWordIsTheWordOfItsRequest := fun w i h => by
  rw [encode, encodeFields_of_decodeFields h, joinWord_splitWord]

/-! ### The refused words (R83) -/

/-- The fields of an illegal word: `Machine.IllegalWord` on the fields instead of the bits. -/
def Req48.Illegal (f : Req48) : Prop :=
  f.op = 0xE#4 ∨ f.op = 0xF#4 ∨ f.rsv ≠ 0#3 ∨
  (f.op ∉ [0x0#4, 0x3#4] ∧ f.d ≠ 0#1) ∨
  (f.op ∉ [0x2#4, 0x3#4, 0x4#4, 0xA#4, 0xD#4] ∧ f.data ≠ 0#8) ∨
  (f.op ≠ 0x3#4 ∧ f.len ≠ 0#16) ∨
  (f.op ∉ [0x0#4, 0x1#4, 0x2#4, 0x3#4] ∧ f.addr ≠ 0#16)

theorem splitWord_illegal_iff (w : RequestWord) : (splitWord w).Illegal ↔ Machine.IllegalWord w := Iff.rfl

/-- With `rsv` 0, the must-be-zero checks of each operation are those of the table of R82. -/
theorem exists_decodeOp_eq_error_iff {f : Req48} (hrsv : f.rsv = 0#3) :
    (∃ e, decodeOp f = .error e) ↔ f.Illegal := by
  obtain ⟨op, d, rsv, data, len, addr⟩ := f
  obtain rfl : rsv = 0#3 := hrsv
  obtain rfl | rfl | rfl | rfl | rfl | rfl | rfl | rfl | rfl | rfl | rfl | rfl | rfl | rfl | rfl | rfl :=
    opcode_cases op <;>
    simp [decodeOp, exists_ifUnusedZero_eq_error, Req48.Illegal, imp_iff_not_or, or_assoc]

theorem exists_decodeFields_eq_error_iff (f : Req48) : (∃ e, decodeFields f = .error e) ↔ f.Illegal := by
  unfold decodeFields
  split
  next hrsv => exact exists_decodeOp_eq_error_iff hrsv
  next hrsv => exact ⟨fun _ => .inr (.inr (.inl hrsv)), fun _ => ⟨_, rfl⟩⟩

/-- Settles O4: the decoder refuses a word by its fields, and their conditions are those of R83. -/
theorem decoderRefusesExactlyTheIllegalWords : Obligations.DecoderRefusesExactlyTheIllegalWords := fun w =>
  (exists_decodeFields_eq_error_iff (splitWord w)).trans (splitWord_illegal_iff w)

theorem exists_decode_eq_error_of_illegal {w : RequestWord} (h : Machine.IllegalWord w) : ∃ e, decode w = .error e :=
  (decoderRefusesExactlyTheIllegalWords w).mpr h

/-! ### The vectors -/

/-- Settles O3: each word is that of its request, which the decoder gives back. -/
theorem encodingVectorsDecode : Obligations.EncodingVectorsDecode :=
  have decodes := decodeOfEncodeGivesBackTheRequest
  ⟨decodes (.resolve .write 0x8000#16), decodes (.read 0x0100#16), decodes (.write 0x5A#8 0x0100#16),
    decodes (.dmaConfig .write 0xAA#8 0x0004#16 0x0100#16), decodes .dmaStep, decodes (.romLoad 0x03#8),
    decodes .fwInstall, decodes (.regionQuery 0x01#8)⟩

end Sys2Proof
end

section
/-! PROOFS. The address decoder on a disjoint table (40_decoder.md section 1), and on the default table (section 2). -/

namespace Sys2Proof.Machine

/-! ### A disjoint table -/

/-- Two entries of a disjoint table that hold one address are one entry. -/
theorem RegionTable.index_eq_of_holds {t : RegionTable} (hw : RegionTable.WF3 t) {i j : Nat} {r q : Region} {a : Addr}
    (hi : t[i]? = some r) (hj : t[j]? = some q) (hr : r.holds a = true) (hq : q.holds a = true) : i = j := by
  rw [Region.holds_eq_true_iff] at hr hq
  obtain ⟨hil, rfl⟩ := List.getElem?_eq_some_iff.mp hi
  obtain ⟨hjl, rfl⟩ := List.getElem?_eq_some_iff.mp hj
  rw [RegionTable.WF3, List.pairwise_iff_getElem] at hw
  obtain hlt | heq | hgt := Nat.lt_trichotomy i j
  · have := hw i j hil hjl hlt
    bv_omega
  · exact heq
  · have := hw j i hjl hil hgt
    bv_omega

section Decoder
variable {s : State} {a : Addr} {kind : AccessKind} {i : Nat} {r : Region}

/-- What the decoder answers for an address that an entry of a disjoint table holds. -/
theorem State.decodeAddr_cases_of_holds (hw : RegionTable.WF3 s.table) (hi : s.table[i]? = some r)
    (hr : r.holds a = true) :
    (kind = .write ∧ writableBy s.fwWritable r = false ∧ s.decodeAddr a kind = .fail .writeProtected (regionId i)) ∨
    (¬(kind = .write ∧ writableBy s.fwWritable r = false) ∧ s.decodeAddr a kind = .ok a (regionId i)) := by
  obtain ⟨hnone, -⟩ | ⟨j, q, hj, hq, -, hres⟩ := decodeFrom_cases s.fwWritable a kind 0 s.table
  · exact absurd hr (by simp [hnone r (List.mem_of_getElem? hi)])
  · obtain rfl := RegionTable.index_eq_of_holds hw hi hj hr hq
    obtain rfl : r = q := Option.some.inj (hi.symm.trans hj)
    rwa [Nat.zero_add] at hres

theorem State.decodeAddr_write_protected (hw : RegionTable.WF3 s.table) (hi : s.table[i]? = some r)
    (hr : r.holds a = true) (hp : writableBy s.fwWritable r = false) :
    s.decodeAddr a .write = .fail .writeProtected (regionId i) := by
  obtain ⟨-, -, h⟩ | ⟨h, -⟩ := State.decodeAddr_cases_of_holds (kind := .write) hw hi hr
  · exact h
  · exact absurd ⟨rfl, hp⟩ h

theorem State.decodeAddr_permitted (hw : RegionTable.WF3 s.table) (hi : s.table[i]? = some r) (hr : r.holds a = true)
    (hp : kind = .read ∨ writableBy s.fwWritable r = true) : s.decodeAddr a kind = .ok a (regionId i) := by
  obtain ⟨hk, hf, -⟩ | ⟨-, h⟩ := State.decodeAddr_cases_of_holds (kind := kind) hw hi hr
  · simp [hk, hf] at hp
  · exact h

end Decoder

/-- Settles O14: no other entry of a disjoint table holds the address, so the scan stops at this one. -/
theorem decodeIsDecidedByTheHoldingRegion : Obligations.DecodeIsDecidedByTheHoldingRegion := by
  intro s a kind hw i r hi hbase hlimit
  have hr := (r.holds_eq_true_iff a).mpr ⟨hbase, hlimit⟩
  refine ⟨?_, State.decodeAddr_permitted hw hi hr⟩
  rintro rfl hp
  exact State.decodeAddr_write_protected hw hi hr hp

/-! ### The default table (R113, R116) -/

theorem Config.defaultTable_wf : RegionTable.WF Config.defaultTable := by decide

/-- The default table has an entry for every address: the one that `defaultRegionOf` names. -/
theorem Config.defaultTable_holds (a : Addr) :
    ∃ r, Config.defaultTable[defaultRegionOf a]? = some r ∧ r.holds a = true := by
  have ha := a.isLt
  simp only [defaultRegionOf]
  split_ifs <;>
    exact ⟨_, rfl, (Region.holds_eq_true_iff _ a).mpr (by simp only [BitVec.toNat_ofNat]; omega)⟩

/-- The policies of the default table: the register, writable, writable, read-only. -/
theorem Config.defaultTable_policy {i : Nat} {r : Region} (fw : Bool) (h : Config.defaultTable[i]? = some r) :
    (i = 3 ∨ (i = 0 ∧ fw = false) → writableBy fw r = false) ∧
    (i = 1 ∨ i = 2 ∨ (i = 0 ∧ fw = true) → writableBy fw r = true) := by
  constructor
  · rintro (rfl | ⟨rfl, rfl⟩) <;> cases h <;> rfl
  · rintro (rfl | rfl | ⟨rfl, rfl⟩) <;> cases h <;> rfl

/-- Settles O17: each address has its entry, whose policy decides. -/
theorem defaultTableDecodesEveryAddress : Obligations.DefaultTableDecodesEveryAddress := by
  intro s a ht
  obtain ⟨r, hi, hr⟩ := Config.defaultTable_holds a
  obtain ⟨hprot, hperm⟩ := Config.defaultTable_policy s.fwWritable hi
  obtain ⟨-, -, hw, -⟩ := Config.defaultTable_wf
  rw [← ht] at hi hw
  exact ⟨State.decodeAddr_permitted hw hi hr (.inl rfl),
    fun h => State.decodeAddr_write_protected hw hi hr (hprot h),
    fun h => State.decodeAddr_permitted hw hi hr (.inr (hperm h))⟩

end Sys2Proof.Machine
end

section
/-! PROOFS. Bytes stored at consecutive addresses, by FW_INSTALL (43_firmware.md R161) and by the ROM formatter
(42_rom_formatter.md R141, R143): the formatter's loop stores the packed groups of its characters. -/

namespace Sys2Proof.Machine

/-! ### Consecutive stores -/

theorem addr_add_succ (a : Addr) (k : Nat) : a + BitVec.ofNat 16 (k + 1) = a + 1#16 + BitVec.ofNat 16 k := by
  rw [Nat.add_comm, BitVec.ofNat_add, BitVec.add_assoc]

/-- Fewer than 65536 steps on from an address is another address. -/
theorem addr_ne_add_succ {a : Addr} {k : Nat} (hk : k + 1 < 65536) : a ≠ a + 1#16 + BitVec.ofNat 16 k := by
  intro h
  have hnat := congrArg BitVec.toNat h
  simp only [BitVec.toNat_add, BitVec.toNat_ofNat] at hnat
  omega

/-- Each of the bytes stands at its address: no more than 65536 of them, so none is overwritten. -/
theorem storeBytes_load_at {vs : List Byte} {a : Addr} {s : State} (hm : s.mem.wf) (hlen : vs.length ≤ 65536) {k : Nat}
    {v : Byte} (hk : vs[k]? = some v) : (storeBytes a vs s).load (a + BitVec.ofNat 16 k) = v := by
  induction vs generalizing a s k with
  | nil => simp at hk
  | cons x vs ih =>
    rw [List.length_cons] at hlen
    cases k with
    | zero =>
      obtain rfl : x = v := by simpa using hk
      have hother : (storeBytes (a + 1#16) vs (s.store a x)).load a = (s.store a x).load a :=
        storeBytes_load_other _ vs _ fun j hj => addr_ne_add_succ (by omega)
      rw [BitVec.add_zero]
      exact hother.trans (State.load_store_same hm a x)
    | succ k =>
      rw [addr_add_succ]
      exact ih (State.store_wf hm a x) (by omega) (by simpa using hk)

/-! ### The packing of a group (R141, R143) -/

theorem charBit_eq_of_bitChar {c : Byte} (h : c = 0x30#8 ∨ c = 0x31#8) : charBit c = c.toNat % 2 := by
  obtain rfl | rfl := h <;> rfl

theorem isBitChar_of_bitChar {c : Byte} (h : c = 0x30#8 ∨ c = 0x31#8) : isBitChar c = true := by
  obtain rfl | rfl := h <;> rfl

/-- The shift register moves up by one bit, and the character's low bit comes in. -/
theorem toNat_shiftIn (acc c : Byte) : (shiftIn acc c).toNat = (2 * acc.toNat + c.toNat % 2) % 256 := by
  have hbit : c.toNat % 2 < 2 ^ 1 := Nat.mod_lt _ (by decide)
  simp only [shiftIn, BitVec.toNat_append, BitVec.extractLsb'_toNat, Nat.shiftRight_zero, Nat.reducePow]
  rw [← Nat.shiftLeft_add_eq_or_of_lt hbit, Nat.shiftLeft_eq]
  omega

/-- Eight characters, shifted in from an empty register, give the byte of the source's formula. -/
theorem toNat_foldl_shiftIn {cs : List Byte} (hlen : cs.length = 8) (hbits : AllBits cs) :
    (cs.foldl shiftIn 0x00#8).toNat = packedByte cs 0 := by
  match cs, hlen with
  | [c0, c1, c2, c3, c4, c5, c6, c7], _ =>
    simp only [AllBits, List.forall_mem_cons] at hbits
    obtain ⟨h0, h1, h2, h3, h4, h5, h6, h7, -⟩ := hbits
    simp only [packedByte, List.range_succ_eq_map, List.range_zero, List.map_cons, List.map_nil, List.sum_cons,
      List.sum_nil, List.foldl_cons, List.foldl_nil, toNat_shiftIn]
    simp [charBit_eq_of_bitChar, *]
    omega

/-- The formula for a byte reads the characters of its own group only. -/
theorem packedByte_append {xs : List Byte} {k : Nat} (h : 8 * k + 8 ≤ xs.length) (ys : List Byte) :
    packedByte (xs ++ ys) k = packedByte xs k := by
  unfold packedByte
  congr 1
  refine List.map_congr_left fun j hj => ?_
  rw [List.mem_range] at hj
  rw [List.getD_append _ _ _ _ (by omega)]

theorem packedByte_drop (xs : List Byte) (k : Nat) : packedByte (xs.drop 8) k = packedByte xs (k + 1) := by
  unfold packedByte
  congr 1
  refine List.map_congr_left fun j _ => ?_
  rw [List.getD_eq_getElem?_getD, List.getD_eq_getElem?_getD, List.getElem?_drop,
    show 8 + (8 * k + j) = 8 * (k + 1) + j by omega]

/-- The output bytes of the first `n` groups of characters, each as the shift register gives it. -/
def packGroups : Nat → List Byte → List Byte
  | 0, _ => []
  | n + 1, cs => (cs.take 8).foldl shiftIn 0x00#8 :: packGroups n (cs.drop 8)

@[simp] theorem packGroups_length (n : Nat) (cs : List Byte) : (packGroups n cs).length = n := by
  induction n generalizing cs with
  | zero => rfl
  | succ n ih => simp [packGroups, ih]

theorem AllBits.take {cs : List Byte} (h : AllBits cs) (n : Nat) : AllBits (cs.take n) :=
  fun c hc => h c (List.mem_of_mem_take hc)

theorem AllBits.drop {cs : List Byte} (h : AllBits cs) (n : Nat) : AllBits (cs.drop n) :=
  fun c hc => h c (List.mem_of_mem_drop hc)

/-- Output byte `k` is that of the source's formula (R143). -/
theorem packGroups_getElem? {n k : Nat} {cs : List Byte} (hk : k < n) (hlen : 8 * n ≤ cs.length) (hbits : AllBits cs) :
    ∃ v, (packGroups n cs)[k]? = some v ∧ v.toNat = packedByte cs k := by
  induction n generalizing cs k with
  | zero => omega
  | succ n ih =>
    cases k with
    | zero =>
      have htake : (cs.take 8).length = 8 := List.length_take_of_le (by omega)
      refine ⟨_, rfl, ?_⟩
      rw [toNat_foldl_shiftIn htake (hbits.take 8), ← packedByte_append (by omega) (cs.drop 8), List.take_append_drop]
    | succ k =>
      obtain ⟨v, hv, hval⟩ := ih (k := k) (by omega) (by rw [List.length_drop]; omega) (hbits.drop 8)
      exact ⟨v, hv, hval.trans (packedByte_drop cs k)⟩

/-- The stored groups read back by the source's formula. -/
theorem toNat_load_packGroups {n k : Nat} {cs : List Byte} {s : State} (hm : s.mem.wf) (hbits : AllBits cs)
    (hlen : 8 * n ≤ cs.length) (hn : n ≤ 65536) (hk : k < n) (base : Addr) :
    ((storeBytes base (packGroups n cs) s).load (base + BitVec.ofNat 16 k)).toNat = packedByte cs k := by
  obtain ⟨v, hv, hval⟩ := packGroups_getElem? hk hlen hbits
  rw [storeBytes_load_at hm (by rwa [packGroups_length]) hv, hval]

theorem load_packGroups_other {n : Nat} {base a : Addr} (cs : List Byte) (s : State)
    (ha : ∀ k, k < n → a ≠ base + BitVec.ofNat 16 k) : (storeBytes base (packGroups n cs) s).load a = s.load a :=
  storeBytes_load_other base _ s (by rwa [packGroups_length])

/-! ### The formatter's loop (R141) -/

theorem formatChars_cons {c : Byte} (hc : c = 0x30#8 ∨ c = 0x31#8) (base : Addr) (cs : List Byte) (i : Nat) (acc : Byte)
    (s : State) :
    formatChars base (c :: cs) i acc s =
      if i % 8 = 7 then formatChars base cs (i + 1) 0x00#8 (s.store (romByteAddr base i) (shiftIn acc c))
      else formatChars base cs (i + 1) (shiftIn acc c) s := by
  rw [formatChars, if_pos (isBitChar_of_bitChar hc)]

/-- Characters that end before a group does go to the shift register, and nowhere else. -/
theorem formatChars_partial {xs : List Byte} {i : Nat} (hbits : AllBits xs) (hi : i % 8 + xs.length < 8) (base : Addr)
    (ys : List Byte) (acc : Byte) (s : State) :
    formatChars base (xs ++ ys) i acc s = formatChars base ys (i + xs.length) (xs.foldl shiftIn acc) s := by
  induction xs generalizing i acc with
  | nil => rfl
  | cons c xs ih =>
    rw [List.length_cons] at hi
    obtain ⟨hc, hxs⟩ := List.forall_mem_cons.mp hbits
    rw [List.cons_append, formatChars_cons hc, if_neg (by omega), ih hxs (by omega), List.length_cons, List.foldl_cons,
      Nat.add_right_comm, Nat.add_assoc]

/-- A complete group is stored at its address, and the shift register is empty again. -/
theorem formatChars_group {xs : List Byte} {i : Nat} (hbits : AllBits xs) (hlen : xs.length = 8) (hi : i % 8 = 0)
    (base : Addr) (ys : List Byte) (s : State) :
    formatChars base (xs ++ ys) i 0x00#8 s =
      formatChars base ys (i + 8) 0x00#8 (s.store (romByteAddr base i) (xs.foldl shiftIn 0x00#8)) := by
  obtain rfl | ⟨init, c, rfl⟩ := List.eq_nil_or_concat' xs
  · simp at hlen
  · have hinit : init.length = 7 := by simpa using hlen
    obtain ⟨hbits', hc⟩ : AllBits init ∧ (c = 0x30#8 ∨ c = 0x31#8) := by
      simpa [AllBits, or_imp, forall_and] using hbits
    have haddr : romByteAddr base (i + 7) = romByteAddr base i := by
      rw [romByteAddr, romByteAddr, show (i + 7) / 8 = i / 8 by omega]
    rw [List.append_assoc, formatChars_partial hbits' (by omega), hinit, List.singleton_append, formatChars_cons hc,
      if_pos (by omega), haddr, List.foldl_append]
    rfl

/-- The loop over characters that are all '0' or '1' stores their complete groups at consecutive addresses. -/
theorem formatChars_append {n i : Nat} {xs : List Byte} (hbits : AllBits xs) (hn : xs.length / 8 = n) (hi : i % 8 = 0)
    (base : Addr) (ys : List Byte) (s : State) :
    ∃ acc, formatChars base (xs ++ ys) i 0x00#8 s =
      formatChars base ys (i + xs.length) acc (storeBytes (romByteAddr base i) (packGroups n xs) s) := by
  induction n generalizing i xs s with
  | zero => exact ⟨_, formatChars_partial hbits (by omega) base ys 0x00#8 s⟩
  | succ n ih =>
    have htake : (xs.take 8).length = 8 := List.length_take_of_le (by omega)
    have hnext : romByteAddr base (i + 8) = romByteAddr base i + 1#16 := by
      rw [romByteAddr, romByteAddr, show (i + 8) / 8 = i / 8 + 1 by omega, BitVec.ofNat_add, BitVec.add_assoc]
    obtain ⟨acc, hrest⟩ := ih (i := i + 8) (xs := xs.drop 8) (hbits.drop 8) (by rw [List.length_drop]; omega) (by omega)
      (s.store (romByteAddr base i) ((xs.take 8).foldl shiftIn 0x00#8))
    refine ⟨acc, ?_⟩
    rw [← List.take_append_drop 8 xs, List.append_assoc, formatChars_group (hbits.take 8) htake hi, hrest, hnext,
      List.take_append_drop, List.length_drop, show i + 8 + (xs.length - 8) = i + xs.length by omega]
    rfl

/-- An image of '0' and '1': every complete group is stored. -/
theorem formatChars_allBits {cs : List Byte} (hbits : AllBits cs) (base : Addr) (s : State) :
    formatChars base cs 0 0x00#8 s = (storeBytes base (packGroups (cs.length / 8) cs) s, none) := by
  obtain ⟨acc, h⟩ := formatChars_append hbits rfl (Nat.zero_mod 8) base [] s
  simpa [formatChars, romByteAddr] using h

/-- A malformed character: every complete group before it is stored. -/
theorem formatChars_malformed {xs ys : List Byte} {c : Byte} (hbits : AllBits xs) (hc : isBitChar c = false)
    (base : Addr) (s : State) :
    formatChars base (xs ++ c :: ys) 0 0x00#8 s =
      (storeBytes base (packGroups (xs.length / 8) xs) s, some { offset := xs.length, char := c }) := by
  obtain ⟨acc, h⟩ := formatChars_append hbits rfl (Nat.zero_mod 8) base (c :: ys) s
  simpa [formatChars, romByteAddr, hc] using h

end Sys2Proof.Machine
end

section
/-! PROOFS. ROM_LOAD (42_rom_formatter.md) and FW_INSTALL (43_firmware.md): what each answers in each of its cases, and the
boot sequence (70_reset_and_hazards.md section 2). -/

namespace Sys2Proof.Machine

/-! ### The refusals of ROM_LOAD, and the load -/

section RomLoad
variable {idx : Byte} {r : Region} {s : State}

theorem execRomLoad_of_run (hp : s.phase = .run) : execRomLoad idx s = .next (s.answer { status := .illegalRequest }) :=
  if_pos (by simp [hp])

/-- In either phase: both refusals give the same answer. -/
theorem execRomLoad_of_no_entry (hidx : s.table.length ≤ idx.toNat) :
    execRomLoad idx s = .next (s.answer { status := .illegalRequest }) := by
  simp [execRomLoad, State.region?, List.getElem?_eq_none hidx]

theorem execRomLoad_of_locked (hp : s.phase = .boot) (hidx : idx.toNat = 0) (hr : s.table[0]? = some r)
    (hs : s.dmaState ≠ .active) (hf : s.fwWritable = false) :
    execRomLoad idx s = .next (s.answer { status := .writeProtected, region := 0#3, addr := r.base }) := by
  simp [execRomLoad, State.region?, Config.fwRegion, regionId, hp, hidx, hr, hs, hf]

theorem execRomLoad_of_admits (h : s.AdmitsRomLoad idx r) : execRomLoad idx s = loadImage idx r s := by
  obtain ⟨hp, hr, hs, hlock⟩ := h
  rw [execRomLoad, if_neg (by simp [hp]), State.region?, hr]
  exact (if_neg hs).trans (if_neg hlock)

theorem loadImage_of_absent (himg : s.image.present = false) :
    loadImage idx r s =
      .next (State.answer { s with romFault := true } { status := .romNotFound, region := regionId idx.toNat }) := by
  simp [loadImage, himg]

theorem loadImage_of_tooLarge (himg : s.image.present = true) (hlen : r.capacity.toNat < s.image.chars.length) :
    loadImage idx r s =
      .next (State.answer { s with romFault := true }
        { status := .romTooLarge, region := regionId idx.toNat, count := s.image.len, max := r.capacity }) := by
  simp [loadImage, himg, hlen]

theorem loadImage_of_malformed (himg : s.image.present = true) (hlen : s.image.chars.length ≤ r.capacity.toNat)
    {t : State} {bad : MalformedBit} (hf : formatChars r.base s.image.chars 0 0x00#8 s = (t, some bad)) :
    loadImage idx r s =
      .next (State.answer { t with romFault := true }
        { status := .romMalformedBit, region := regionId idx.toNat, count := BitVec.ofNat 32 bad.offset,
          data := bad.char }) := by
  simp [loadImage, himg, Nat.not_lt.mpr hlen, hf]

theorem loadImage_of_packed (himg : s.image.present = true) (hlen : s.image.chars.length ≤ r.capacity.toNat)
    {t : State} (hf : formatChars r.base s.image.chars 0 0x00#8 s = (t, none)) :
    loadImage idx r s =
      .next (t.answer
        { status := .ok, region := regionId idx.toNat, count := BitVec.ofNat 32 (s.image.chars.length / 8),
          data := BitVec.ofNat 8 (s.image.chars.length % 8), max := r.capacity }) := by
  simp [loadImage, himg, Nat.not_lt.mpr hlen, hf, Image.len_div_eight, Image.len_mod_eight]

/-- A ROM_LOAD is refused with no state change, or admitted into its region. -/
theorem execRomLoad_refused_or_admitted (idx : Byte) (s : State) :
    (∃ a, a.status ≠ .ok ∧ execRomLoad idx s = .next (s.answer a)) ∨ ∃ q, s.AdmitsRomLoad idx q := by
  obtain ⟨a, ha⟩ | ⟨hp, hs, q, hq, hlock, -⟩ := execRomLoad_cases idx s
  · exact .inl ⟨a, ha⟩
  · exact .inr ⟨q, hp, hq, hs, hlock⟩

/-- The capacity that the model holds in 17 bits is the region's size (WF2). -/
theorem State.AdmitsRomLoad.toNat_capacity (h : s.AdmitsRomLoad idx r) (hw : RegionTable.WF s.table) :
    r.capacity.toNat = sizeOfRegion r := by
  obtain ⟨-, hr, -, -⟩ := h
  obtain ⟨-, hle, -⟩ := hw
  exact r.toNat_capacity (hle r (List.mem_of_getElem? hr))

end RomLoad

/-- The bytes of a region lie between its bounds, and their addresses do not wrap. -/
theorem toNat_base_add {r : Region} {k : Nat} (hle : r.base ≤ r.limit) (hk : k < sizeOfRegion r) :
    (r.base + BitVec.ofNat 16 k).toNat = r.base.toNat + k ∧ r.base.toNat + k ≤ r.limit.toNat := by
  have hlimit := r.limit.isLt
  have hle' : r.base.toNat ≤ r.limit.toNat := hle
  simp only [sizeOfRegion] at hk
  have hin : r.base.toNat + k ≤ r.limit.toNat := by omega
  refine ⟨?_, hin⟩
  rw [BitVec.toNat_add, BitVec.toNat_ofNat]
  omega

theorem sizeOfRegion_le (r : Region) : sizeOfRegion r ≤ 65536 := by
  have := r.limit.isLt
  simp only [sizeOfRegion]
  omega

/-- Settles O25: in the order of the checks, each refusal is reached with the earlier checks passed. -/
theorem romLoadRefusalsInOrder : Obligations.RomLoadRefusalsInOrder :=
  fun _ _ =>
    ⟨rfl, execRomLoad_of_run, fun _ => execRomLoad_of_no_entry, fun hp hidx hs => execRomLoad_of_active hs hp hidx,
      fun _ hp hidx hr hs hf => execRomLoad_of_locked hp hidx hr hs hf⟩

/-- Settles O26: both errors come before the first character, and the region's size is the capacity of the check. -/
theorem romLoadImageErrorsBeforeTheFirstCharacter : Obligations.RomLoadImageErrorsBeforeTheFirstCharacter := by
  intro idx r s hw hadm
  have hcap := hadm.toNat_capacity hw
  refine ⟨fun himg => (execRomLoad_of_admits hadm).trans (loadImage_of_absent himg), fun himg hlen => ?_⟩
  exact ⟨r.capacity, hcap, (execRomLoad_of_admits hadm).trans (loadImage_of_tooLarge himg (by omega))⟩

/-- Settles O27: the loop stores the packed groups from the base on, and as many bytes as characters fit the region, so its
eighth does. -/
theorem romLoadPacksTheImage : Obligations.RomLoadPacksTheImage := by
  intro idx r s hm hw hadm himg hlen hbits
  have hcap := hadm.toNat_capacity hw
  have hload := loadImage_of_packed (idx := idx) himg (hcap ▸ hlen) (formatChars_allBits hbits r.base s)
  have hsize := sizeOfRegion_le r
  obtain ⟨-, hr, -, -⟩ := id hadm
  obtain ⟨-, hle, -⟩ := hw
  refine ⟨_, r.capacity, hcap, (execRomLoad_of_admits hadm).trans hload, ?_, fun k hk => ⟨?_, ?_⟩, fun a ha => ?_⟩
  · exact congrArg (State.answer · _) (storeBytes_frame _ _ s)
  · exact toNat_load_packGroups hm hbits (by omega) (by omega) hk r.base
  · exact toNat_base_add (hle r (List.mem_of_getElem? hr)) (by omega)
  · exact load_packGroups_other _ s ha

/-- Settles O28: the characters before the malformed one are packed as an image of their own, and the formula for a complete
group does not read further. -/
theorem romLoadEndsAtTheFirstMalformedCharacter : Obligations.RomLoadEndsAtTheFirstMalformedCharacter := by
  intro idx r s i c hm hw hadm himg hlen hc h0 h1 hbits
  have hcap := hadm.toNat_capacity hw
  have hsize := sizeOfRegion_le r
  obtain ⟨hi, hget⟩ := List.getElem?_eq_some_iff.mp hc
  have htake : (s.image.chars.take i).length = i := List.length_take_of_le hi.le
  have hsplit : s.image.chars = s.image.chars.take i ++ c :: s.image.chars.drop (i + 1) := by
    rw [← hget, List.getElem_cons_drop, List.take_append_drop]
  have hbad : isBitChar c = false := by simp [isBitChar, h0, h1]
  have hloop := formatChars_malformed (ys := s.image.chars.drop (i + 1)) hbits hbad r.base s
  rw [← hsplit, htake] at hloop
  refine ⟨_, (execRomLoad_of_admits hadm).trans (loadImage_of_malformed himg (hcap ▸ hlen) hloop), ?_, fun k hk => ?_,
    fun a ha => load_packGroups_other _ s ha⟩
  · exact congrArg (fun u : State => State.answer { u with romFault := true } _) (storeBytes_frame _ _ s)
  · have hgroup := packedByte_append (xs := s.image.chars.take i) (k := k) (by omega) (c :: s.image.chars.drop (i + 1))
    rw [← hsplit] at hgroup
    exact (toNat_load_packGroups hm hbits (by omega) (by omega) hk r.base).trans hgroup.symm

/-! ### FW_INSTALL (R161) -/

section FwInstall
variable {s : State}

theorem execFwInstall_of_run (hp : s.phase = .run) : execFwInstall s = .next (s.answer { status := .illegalRequest }) :=
  if_pos (by simp [hp])

/-- In either phase: both refusals give the same answer. -/
theorem execFwInstall_of_locked (hf : s.fwWritable = false) :
    execFwInstall s = .next (s.answer { status := .illegalRequest }) := by
  cases hp : s.phase with
  | boot => simp [execFwInstall, hp, hf]
  | run => exact execFwInstall_of_run hp

theorem execFwInstall_of_boot (hp : s.phase = .boot) (hf : s.fwWritable = true) (hs : s.dmaState ≠ .active) :
    execFwInstall s =
      .next (State.answer { storeBytes 0x0000#16 Config.fwImage s with fwWritable := false }
        { status := .ok, region := 0#3, count := 6#32 }) := by
  simp [execFwInstall, hp, hf, hs, regionId, Config.fwRegion]

/-- The firmware image stands at 0x0000 to 0x0005. -/
theorem load_fwImage (hm : s.mem.wf) {k : Nat} {v : Byte} (hk : Config.fwImage[k]? = some v) :
    (storeBytes 0x0000#16 Config.fwImage s).load (BitVec.ofNat 16 k) = v := by
  simpa using storeBytes_load_at (a := 0x0000#16) hm (by decide) hk

theorem load_fwImage_other {a : Addr} (ha : 5 < a.toNat) : (storeBytes 0x0000#16 Config.fwImage s).load a = s.load a :=
  storeBytes_load_other _ _ s fun j hj he => by
    have hj' : j < 6 := hj
    rw [he] at ha
    simp only [BitVec.toNat_add, BitVec.toNat_ofNat] at ha
    omega

/-- The state after an FW_INSTALL: the backing store, the lock and the response are all that changes. -/
theorem fwInstalled_frame (s : State) (r : Response) :
    State.answer { storeBytes 0x0000#16 Config.fwImage s with fwWritable := false } r =
      { s with mem := (storeBytes 0x0000#16 Config.fwImage s).mem, fwWritable := false, response := some r } :=
  congrArg (fun u : State => State.answer { u with fwWritable := false } r)
    (storeBytes_frame 0x0000#16 Config.fwImage s)

end FwInstall

/-- Settles O30: the six bytes are consecutive stores from 0x0000, which change the backing store only. -/
theorem fwInstallWritesTheImageAndLocks : Obligations.FwInstallWritesTheImageAndLocks := by
  refine fun s => ⟨rfl, execFwInstall_of_run, fun _ => execFwInstall_of_locked,
    fun hp hf hs => execFwInstall_of_active hs hp hf, fun hm hp hf hs => ?_⟩
  refine ⟨_, execFwInstall_of_boot hp hf hs, ?_, load_fwImage (k := 0) hm rfl, load_fwImage (k := 1) hm rfl,
    load_fwImage (k := 2) hm rfl, load_fwImage (k := 3) hm rfl, load_fwImage (k := 4) hm rfl,
    load_fwImage (k := 5) hm rfl, fun _ => load_fwImage_other⟩
  exact fwInstalled_frame s _

/-! ### The boot sequence (R91, R242) -/

theorem execSeq_cons_of_next {i : Instr} {is : List Instr} {s t : State} (h : exec i s = .next t) :
    execSeq (i :: is) s = execSeq is t := by
  simp [execSeq, h]

/-- The state that the boot sequence leaves: the program's groups stored in the region `r`, then the firmware; Firmware
locked; Run. -/
def State.booted (s : State) (r : Region) : State :=
  State.answer
    { storeBytes 0x0000#16 Config.fwImage
        (storeBytes r.base (packGroups (s.image.chars.length / 8) s.image.chars) s) with
      fwWritable := false, phase := .run }
    { status := .ok }

theorem execSeq_boot {s : State} {r : Region} (hadm : s.AdmitsRomLoad Config.romRegionDefault r)
    (himg : s.image.present = true) (hlen : s.image.chars.length ≤ r.capacity.toNat) (hbits : AllBits s.image.chars)
    (hf : s.fwWritable = true) (hrom : s.romFault = false) :
    execSeq Pseudo.boot.expand s = .next (s.booted r) := by
  have hmode := storeBytes_mode r.base (packGroups (s.image.chars.length / 8) s.image.chars) s
  have hdma := storeBytes_dmaState r.base (packGroups (s.image.chars.length / 8) s.image.chars) s
  obtain ⟨hp, -, hs, -⟩ := id hadm
  have hload := (execRomLoad_of_admits hadm).trans (loadImage_of_packed himg hlen (formatChars_allBits hbits r.base s))
  have hphase := (congrArg Mode.phase hmode).trans hp
  have hlock := (congrArg Mode.fwWritable hmode).trans hf
  have hfault := (congrArg Mode.romFault hmode).trans hrom
  calc execSeq Pseudo.boot.expand s
      = execSeq [.fwInstall, .start] _ := execSeq_cons_of_next hload
    _ = execSeq [.start] _ := execSeq_cons_of_next (execFwInstall_of_boot hphase hlock (ne_of_eq_of_ne hdma hs))
    _ = .next (s.booted r) := execSeq_cons_of_next (execStart_of_boot hphase hfault)

theorem State.booted_romFault (s : State) (r : Region) : (s.booted r).romFault = s.romFault :=
  congrArg Mode.romFault (storeBytes_mode r.base (packGroups (s.image.chars.length / 8) s.image.chars) s)

theorem State.booted_dmaState (s : State) (r : Region) : (s.booted r).dmaState = s.dmaState :=
  storeBytes_dmaState r.base (packGroups (s.image.chars.length / 8) s.image.chars) s

section Booted
variable {s : State} {r : Region} {k : Nat} {a : Addr}

theorem State.booted_load_firmware (hm : s.mem.wf) {v : Byte} (hk : Config.fwImage[k]? = some v) :
    (s.booted r).load (BitVec.ofNat 16 k) = v :=
  load_fwImage (storeBytes_wf _ _ hm) hk

theorem State.booted_load_above (ha : 5 < a.toNat) :
    (s.booted r).load a = (storeBytes r.base (packGroups (s.image.chars.length / 8) s.image.chars) s).load a :=
  load_fwImage_other ha

/-- In a region above the firmware's bytes, the program's groups stand as they were stored. -/
theorem State.toNat_booted_load_program (hm : s.mem.wf) (hbits : AllBits s.image.chars) (hle : r.base ≤ r.limit)
    (hlen : s.image.chars.length ≤ sizeOfRegion r) (habove : 5 < r.base.toNat) (hk : k < s.image.chars.length / 8) :
    ((s.booted r).load (r.base + BitVec.ofNat 16 k)).toNat = packedByte s.image.chars k := by
  have hsize := sizeOfRegion_le r
  obtain ⟨haddr, -⟩ := toNat_base_add hle (k := k) (by omega)
  rw [State.booted_load_above (by omega)]
  exact toNat_load_packGroups hm hbits (by omega) (by omega) hk r.base

/-- A byte above the firmware's and outside the program's groups is as before. -/
theorem State.booted_load_other (hle : r.base ≤ r.limit) (hlen : s.image.chars.length ≤ sizeOfRegion r)
    (ha : 5 < a.toNat) (hout : a.toNat < r.base.toNat ∨ r.base.toNat + s.image.chars.length / 8 ≤ a.toNat) :
    (s.booted r).load a = s.load a := by
  rw [State.booted_load_above ha, load_packGroups_other]
  rintro k hk rfl
  obtain ⟨haddr, -⟩ := toNat_base_add hle (k := k) (by omega)
  omega

end Booted

/-- The program's region of the default table. -/
theorem Config.exists_programRom : ∃ r, Config.defaultTable[3]? = some r ∧ r.base = 0x8000#16 ∧ r.limit = 0xFFFF#16 :=
  ⟨_, rfl, rfl, rfl⟩

/-- Settles O36: the three requests run in order; the program's bytes lie from 0x8000 on, so the firmware's do not touch
them. -/
theorem bootSequenceLoadsFirmwareAndProgram : Obligations.BootSequenceLoadsFirmwareAndProgram := by
  intro img himg hbits hlen
  obtain ⟨r, hr, hbase, hlimit⟩ := Config.exists_programRom
  have hle : r.base ≤ r.limit := by rw [hbase, hlimit]; decide
  have hsize : sizeOfRegion r = 0x8000 := by simp [sizeOfRegion, hbase, hlimit]
  have hlow : r.base.toNat = 0x8000 := by rw [hbase]; rfl
  have hfit : img.chars.length ≤ sizeOfRegion r := hsize ▸ hlen
  have hadm : State.AdmitsRomLoad { State.reset with image := img } Config.romRegionDefault r :=
    ⟨rfl, hr, nofun, nofun⟩
  have hrun := execSeq_boot hadm himg (by rwa [r.toNat_capacity hle]) hbits rfl rfl
  have hvec : ∀ j < 6, Config.fwImage[j]? = some (Config.fwImage.getD j 0x00#8) := by decide
  refine ⟨_, hrun, rfl, rfl, State.booted_romFault _ r, State.booted_dmaState _ r, ⟨rfl, fun j hj => ?_⟩,
    fun k hk => ?_, fun a ha hout => ?_⟩
  · rw [BitVec.zero_add]
    exact State.booted_load_firmware (s := { State.reset with image := img }) Memory.nil_wf (hvec j hj)
  · rw [← hbase]
    exact State.toNat_booted_load_program (s := { State.reset with image := img }) Memory.nil_wf hbits hle hfit
      (by omega) hk
  · rw [← hlow] at hout
    exact State.booted_load_other (s := { State.reset with image := img }) hle hfit ha hout

end Sys2Proof.Machine
end

section
/-! PROOFS. One event at the port (30_encoding.md R80, R83): an illegal word, a decoded request, the reset input
(70_reset_and_hazards.md R240), and the launch state. -/

namespace Sys2Proof.Machine

section Port
variable {s : State} {w : RequestWord} {image : Image} {rest : List PortEvent} {i : Instr} {e : DecodeReject}

theorem step_of_wf (hw : RegionTable.WF s.table) : step s = servePort s := if_pos hw

theorem step_of_no_event (hw : RegionTable.WF s.table) (hin : s.inbox = []) : step s = .next s := by
  rw [step_of_wf hw, servePort, hin, idle]

theorem step_of_reset (hw : RegionTable.WF s.table) (hin : s.inbox = .reset :: rest) :
    step s = .next (s.afterReset rest) := by
  rw [step_of_wf hw, servePort, hin]

theorem step_of_request (hw : RegionTable.WF s.table) (hin : s.inbox = .request w image :: rest) :
    step s = serve w (s.accept image rest) := by
  rw [step_of_wf hw, servePort, hin]

theorem serve_of_decode_ok (h : decode w = .ok i) : serve w s = exec i s := by
  rw [serve, h]

theorem serve_of_decode_error (h : decode w = .error e) : serve w s = .next (s.answer { status := .illegalRequest }) := by
  rw [serve, h, raise]

theorem serve_of_illegal (h : IllegalWord w) : serve w s = .next (s.answer { status := .illegalRequest }) := by
  obtain ⟨e, he⟩ := exists_decode_eq_error_of_illegal h
  exact serve_of_decode_error he

end Port

/-- Settles O5: the decoder refuses the word, and the refusal changes the response output only. -/
theorem illegalWordIsAnsweredAndChangesNoState : Obligations.IllegalWordIsAnsweredAndChangesNoState :=
  fun _ _ _ _ hw hin hbad => ⟨(step_of_request hw hin).trans (serve_of_illegal hbad), rfl⟩

/-- Settles O6: the step serves the word at the head of the inbox, and serving an accepted word is its request. -/
theorem stepRunsTheDecodedRequest : Obligations.StepRunsTheDecodedRequest :=
  fun _ _ _ _ _ hw hin hdec => (step_of_request hw hin).trans (serve_of_decode_ok hdec)

/-- Settles O9: the launch state is written out in the model; its memory lists no byte. -/
theorem launchStateHasTheResetValues : Obligations.LaunchStateHasTheResetValues :=
  ⟨fun _ => rfl, rfl, rfl, rfl, rfl, rfl, rfl, rfl, rfl, rfl, rfl, rfl, rfl, rfl, rfl, rfl⟩

/-- Settles O10: the step is `State.afterReset`, whatever the state was. -/
theorem resetInputSetsEveryResetValue : Obligations.ResetInputSetsEveryResetValue :=
  fun _ _ hw hin =>
    ⟨_, step_of_reset hw hin, fun _ => rfl, rfl, rfl, rfl, rfl, rfl, rfl, rfl, rfl, rfl, rfl, rfl, rfl, rfl, rfl, rfl,
      rfl⟩

end Sys2Proof.Machine
end

section
/-! PROOFS. Everything a request can do to the state: one inversion lemma over all requests (`exec_effect`), from which the
statements about all requests and all steps follow. Here: every request is answered (60_exceptions.md section 2), and a step
is refused only on an ill-formed table (10_state.md R23). -/

namespace Sys2Proof.Machine

/-! ### The effects -/

/-- Everything a request can do: change the response only; or, under the conditions named, store bytes, move the arbiter, or
write a mode register. -/
inductive Effect (s : State) : Instr → State → Prop
  | answered {i : Instr} (r : Response) : Effect s i (s.answer r)
  | wrote {v : Byte} {a : Addr} {g : RegionId} {r : Response} (hs : s.dmaState ≠ .active)
      (hdec : s.decodeAddr a .write = .ok a g) (hr : r.status = .ok) : Effect s (.write v a) ((s.store a v).answer r)
  | configured {d : AccessKind} {p : Byte} {n : DmaLength} {a : Addr} {r : Response} (hlen : 1 ≤ n.toNat)
      (hin : a.toNat + n.toNat - 1 ≤ 0xFFFF) (hr : r.status = .ok) :
      Effect s (.dmaConfig d p n a) ((s.configureDma d p n a).answer r)
  | pendingLoaded (v : Byte) :
      Effect s (.dmaLoadPending v) (State.answer { s with dmaPending := v } { status := .ok, data := v })
  | granted (hs : s.dmaState = .requested) :
      Effect s .dmaGrant (State.answer { s with dmaState := .active } { status := .ok })
  | stepAborted {f : AccessFault} {g : RegionId} (hs : s.dmaState = .active)
      (hdec : s.decodeAddr s.dmaStart s.dmaDir = .fail f g) :
      Effect s .dmaStep ((s.abortDma s.dmaStart f).answer
        { status := .dmaAborted, region := g, addr := s.dmaStart, cause := f.cause })
  | stepWrote {g : RegionId} {r : Response} (hs : s.dmaState = .active)
      (hdec : s.decodeAddr s.dmaStart .write = .ok s.dmaStart g) (hd : s.dmaDir = .write) (hr : r.status = .ok) :
      Effect s .dmaStep (((s.store s.dmaStart s.dmaPending).advanceDma s.dmaStart).answer r)
  | stepRead {r : Response} (hs : s.dmaState = .active) (hr : r.status = .ok) :
      Effect s .dmaStep ((State.advanceDma { s with dmaPending := s.load s.dmaStart } s.dmaStart).answer r)
  | acked (hs : s.dmaState = .complete) :
      Effect s .dmaAck (State.answer { s with dmaState := .idle } { status := .ok })
  | imageRejected {idx : Byte} {q : Region} {r : Response} (hadm : s.AdmitsRomLoad idx q)
      (hr : r.status = .romNotFound ∨ r.status = .romTooLarge) :
      Effect s (.romLoad idx) (State.answer { s with romFault := true } r)
  | imageMalformed {idx : Byte} {q : Region} {t : State} {bad : MalformedBit} (hadm : s.AdmitsRomLoad idx q)
      (himg : s.image.present = true) (hlen : s.image.chars.length ≤ q.capacity.toNat)
      (hf : formatChars q.base s.image.chars 0 0x00#8 s = (t, some bad)) :
      Effect s (.romLoad idx) (State.answer { t with romFault := true }
        { status := .romMalformedBit, region := regionId idx.toNat, count := BitVec.ofNat 32 bad.offset,
          data := bad.char })
  | imageLoaded {idx : Byte} {q : Region} {t : State} {r : Response} (hadm : s.AdmitsRomLoad idx q)
      (himg : s.image.present = true) (hlen : s.image.chars.length ≤ q.capacity.toNat)
      (hf : formatChars q.base s.image.chars 0 0x00#8 s = (t, none)) (hr : r.status = .ok) :
      Effect s (.romLoad idx) (t.answer r)
  | installed {r : Response} (hp : s.phase = .boot) (hf : s.fwWritable = true) (hs : s.dmaState ≠ .active)
      (hr : r.status = .ok) :
      Effect s .fwInstall (State.answer { storeBytes 0x0000#16 Config.fwImage s with fwWritable := false } r)
  | started (hp : s.phase = .boot) (hf : s.romFault = false) :
      Effect s .start (State.answer { s with phase := .run } { status := .ok })

theorem execDmaConfig_effect (d : AccessKind) (p : Byte) (n : DmaLength) (a : Addr) (s : State) :
    ∃ t, execDmaConfig d p n a s = .next t ∧ Effect s (.dmaConfig d p n a) t := by
  obtain ⟨r, h⟩ | ⟨-, hn, hrange, r, hr, h⟩ := execDmaConfig_cases d p n a s
  · exact ⟨_, h, .answered r⟩
  · have hlen : 1 ≤ n.toNat := by bv_omega
    have hin : ¬0xFFFF < a.toNat + n.toNat - 1 := by
      rw [← dmaOutOfRange_iff hlen, hrange]
      decide
    exact ⟨_, h, .configured hlen (Nat.not_lt.mp hin) hr⟩

theorem execDmaStep_effect (s : State) : ∃ t, execDmaStep s = .next t ∧ Effect s .dmaStep t := by
  obtain ⟨-, h⟩ | ⟨hs, f, g, r, hdec, -, -⟩ | ⟨hs, hd, g, r, hdec, hr, h⟩ | ⟨hs, hd, g, r, hdec, hr, h⟩ :=
    execDmaStep_cases s
  · exact ⟨_, h, .answered _⟩
  · exact ⟨_, execDmaStep_of_fail hs hdec, .stepAborted hs hdec⟩
  · exact ⟨_, h, .stepWrote hs hdec hd hr⟩
  · exact ⟨_, h, .stepRead hs hr⟩

theorem loadImage_effect {idx : Byte} {q : Region} {s : State} (hadm : s.AdmitsRomLoad idx q) :
    ∃ t, loadImage idx q s = .next t ∧ Effect s (.romLoad idx) t := by
  cases himg : s.image.present with
  | false => exact ⟨_, loadImage_of_absent himg, .imageRejected hadm (.inl rfl)⟩
  | true =>
    obtain hlen | hlen := Nat.lt_or_ge q.capacity.toNat s.image.chars.length
    · exact ⟨_, loadImage_of_tooLarge himg hlen, .imageRejected hadm (.inr rfl)⟩
    · match hf : formatChars q.base s.image.chars 0 0x00#8 s with
      | (t, some bad) => exact ⟨_, loadImage_of_malformed himg hlen hf, .imageMalformed hadm himg hlen hf⟩
      | (t, none) => exact ⟨_, loadImage_of_packed himg hlen hf, .imageLoaded hadm himg hlen hf rfl⟩

/-- Every request answers a next state, by one of the effects. -/
theorem exec_effect (i : Instr) (s : State) : ∃ t, exec i s = .next t ∧ Effect s i t := by
  cases i with
  | resolve kind a => exact (execResolve_next kind a s).elim fun r h => ⟨_, h, .answered r⟩
  | read a => exact (execRead_next a s).elim fun r h => ⟨_, h, .answered r⟩
  | regionQuery idx => exact (execRegionQuery_next idx s).elim fun r h => ⟨_, h, .answered r⟩
  | write v a =>
    obtain ⟨r, -, h⟩ | ⟨hs, g, r, hdec, hr, h⟩ := execWrite_cases v a s
    · exact ⟨_, h, .answered r⟩
    · exact ⟨_, h, .wrote hs hdec hr⟩
  | dmaConfig d p n a => exact execDmaConfig_effect d p n a s
  | dmaLoadPending v => exact ⟨_, rfl, .pendingLoaded v⟩
  | dmaReadPending => exact ⟨_, rfl, .answered _⟩
  | dmaGrant =>
    obtain ⟨-, h⟩ | ⟨hs, h⟩ := execDmaGrant_cases s
    · exact ⟨_, h, .answered _⟩
    · exact ⟨_, h, .granted hs⟩
  | dmaStep => exact execDmaStep_effect s
  | dmaAck =>
    obtain ⟨-, h⟩ | ⟨hs, h⟩ := execDmaAck_cases s
    · exact ⟨_, h, .answered _⟩
    · exact ⟨_, h, .acked hs⟩
  | dmaStatus => exact ⟨_, rfl, .answered _⟩
  | romLoad idx =>
    obtain ⟨r, -, h⟩ | ⟨q, hadm⟩ := execRomLoad_refused_or_admitted idx s
    · exact ⟨_, h, .answered r⟩
    · rw [exec, execRomLoad_of_admits hadm]
      exact loadImage_effect hadm
  | fwInstall =>
    obtain ⟨r, -, h⟩ | ⟨hp, hf, hs, r, hr, h⟩ := execFwInstall_cases s
    · exact ⟨_, h, .answered r⟩
    · exact ⟨_, h, .installed hp hf hs hr⟩
  | start =>
    obtain ⟨r, -, h⟩ | ⟨hp, hf, h⟩ := execStart_cases s
    · exact ⟨_, h, .answered r⟩
    · exact ⟨_, h, .started hp hf⟩

theorem effect_of_exec {i : Instr} {s t : State} (h : exec i s = .next t) : Effect s i t := by
  obtain ⟨u, hu, he⟩ := exec_effect i s
  obtain rfl := Host.Outcome.next.inj (h.symm.trans hu)
  exact he

/-! ### The bookkeeping of a moved byte, and the formatter's loop, as changes of few fields -/

/-- The registers that a moved byte writes are the transfer's own. -/
theorem State.advanceDma_frame (s : State) (a : Addr) :
    s.advanceDma a = { s with
      dmaState := (s.advanceDma a).dmaState, dmaStart := (s.advanceDma a).dmaStart, dmaLen := (s.advanceDma a).dmaLen,
      dmaDir := (s.advanceDma a).dmaDir } := by
  obtain ⟨-, h⟩ | ⟨-, h⟩ := s.advanceDma_cases a
  · rw [h]; rfl
  · rw [h]

section Formatted
variable {base a : Addr} {cs : List Byte} {s t : State} {bad : Option MalformedBit}

theorem frame_of_formatChars (hf : formatChars base cs 0 0x00#8 s = (t, bad)) : t = { s with mem := t.mem } := by
  have h := formatChars_frame base cs 0 0x00#8 s
  rwa [hf] at h

theorem wf_of_formatChars (hf : formatChars base cs 0 0x00#8 s = (t, bad)) (hm : s.mem.wf) : t.mem.wf := by
  have h := formatChars_wf base cs 0 0x00#8 hm
  rwa [hf] at h

theorem load_other_of_formatChars (hf : formatChars base cs 0 0x00#8 s = (t, bad))
    (ha : ∀ k, k < cs.length / 8 → a ≠ base + BitVec.ofNat 16 k) : t.load a = s.load a := by
  have h := formatChars_load_other base cs 0 0x00#8 s (a := a) fun j _ hj h7 => ha (j / 8) (by omega)
  rwa [hf] at h

end Formatted

/-! ### Every request is answered -/

section
variable {s t : State} {i : Instr}

theorem Effect.exists_response (h : Effect s i t) : ∃ r, t.response = some r := by
  cases h <;> exact ⟨_, rfl⟩

/-- No request writes the table or a port. -/
theorem Effect.keeps_ports (h : Effect s i t) : t.table = s.table ∧ t.image = s.image ∧ t.inbox = s.inbox := by
  cases h
  case stepWrote => rw [State.advanceDma_frame]; exact ⟨rfl, rfl, rfl⟩
  case stepRead => rw [State.advanceDma_frame]; exact ⟨rfl, rfl, rfl⟩
  case imageMalformed hf => rw [frame_of_formatChars hf]; exact ⟨rfl, rfl, rfl⟩
  case imageLoaded hf _ => rw [frame_of_formatChars hf]; exact ⟨rfl, rfl, rfl⟩
  all_goals exact ⟨rfl, rfl, rfl⟩

end

theorem exists_next_of_step_wf {s : State} (hw : RegionTable.WF s.table) : ∃ t, step s = .next t := by
  obtain ⟨-, h⟩ | ⟨rest, -, h⟩ | ⟨w, image, rest, i, -, -, h⟩ | ⟨w, image, rest, e, -, -, h⟩ := step_cases hw
  · exact ⟨_, h⟩
  · exact ⟨_, h⟩
  · obtain ⟨t, ht, -⟩ := exec_effect i (s.accept image rest)
    exact ⟨t, h.trans ht⟩
  · exact ⟨_, h⟩

/-- Settles O7: each request has an effect, each effect ends in an answer, and none writes the table or a port. -/
theorem everyRequestIsAnswered : Obligations.EveryRequestIsAnswered := by
  refine ⟨fun s hw => exists_next_of_step_wf hw, fun s hw hin => step_of_no_event hw hin, fun i s => ?_⟩
  obtain ⟨t, ht, he⟩ := exec_effect i s
  obtain ⟨r, hr⟩ := he.exists_response
  exact ⟨t, r, ht, hr, he.keeps_ports⟩

/-! ### The refused tables (R23) -/

theorem step_eq_refused_iff (s : State) : step s = .refused .illFormedRegionTable ↔ ¬RegionTable.WF s.table := by
  refine ⟨fun h hw => ?_, fun hw => if_neg hw⟩
  obtain ⟨t, ht⟩ := exists_next_of_step_wf hw
  exact absurd (h.symm.trans ht) nofun

section Table
variable (t : RegionTable)

theorem RegionTable.wf2_iff :
    RegionTable.WF2 t ↔ ∀ (i : Nat) (r : Region), t[i]? = some r → r.base.toNat ≤ r.limit.toNat := by
  simp only [RegionTable.WF2, List.mem_iff_getElem?, forall_exists_index, BitVec.le_def]
  exact forall_comm

theorem RegionTable.wf3_iff :
    RegionTable.WF3 t ↔ ∀ (i j : Nat) (r q : Region), i < j → t[i]? = some r → t[j]? = some q →
      r.limit.toNat < q.base.toNat ∨ q.limit.toNat < r.base.toNat := by
  rw [RegionTable.WF3, List.pairwise_iff_getElem]
  constructor
  · intro h i j r q hij hi hj
    obtain ⟨hil, rfl⟩ := List.getElem?_eq_some_iff.mp hi
    obtain ⟨hjl, rfl⟩ := List.getElem?_eq_some_iff.mp hj
    exact h i j hil hjl hij
  · intro h i j hi hj hij
    exact h i j _ _ hij (List.getElem?_eq_getElem hi) (List.getElem?_eq_getElem hj)

theorem WritePolicy.ne_fwRegister_iff (p : WritePolicy) : p ≠ .fwRegister ↔ ∃ b, p = .constant b := by
  cases p <;> simp

theorem RegionTable.wf4_iff :
    RegionTable.WF4 t ↔
      (∃ r : Region, t[0]? = some r ∧ r.base = 0x0000#16 ∧ 5 ≤ r.limit.toNat ∧ r.policy = .fwRegister) ∧
      ∀ (i : Nat) (r : Region), 0 < i → t[i]? = some r → ∃ b, r.policy = .constant b := by
  cases t with
  | nil => simp [RegionTable.WF4]
  | cons q t =>
    refine and_congr ?_ ?_
    · simp [RegionTable.FirmwareEntry, BitVec.le_def]
    · simp only [List.tail_cons, List.mem_iff_getElem?, WritePolicy.ne_fwRegister_iff, forall_exists_index]
      constructor
      · rintro h (_ | i) r hi hr
        · cases hi
        · exact h r i hr
      · exact fun h r i hr => h (i + 1) r i.succ_pos hr

end Table

/-- Settles O8: a step on a well-formed table answers a state, and the checks of R23, entry by entry, are the model's. -/
theorem illFormedRegionTableIsRefused : Obligations.IllFormedRegionTableIsRefused := fun s => by
  rw [step_eq_refused_iff, RegionTable.WF, RegionTable.wf2_iff, RegionTable.wf3_iff, RegionTable.wf4_iff]

end Sys2Proof.Machine
end

section
/-! PROOFS. The invariant of 10_state.md section 5: it holds at reset, and every request and every step keeps it. -/

namespace Sys2Proof.Machine

section
variable {s t : State}

/-- I-A asks nothing while a transfer is configured. -/
theorem State.idleRegistersZero_of_configured (h : s.dmaState = .requested ∨ s.dmaState = .active) :
    s.IdleRegistersZero := by
  rintro (h' | h') <;> simp [h'] at h

/-- I-B asks nothing while no transfer is configured. -/
theorem State.transferInRange_of_unconfigured (h : s.dmaState = .idle ∨ s.dmaState = .complete) :
    s.TransferInRange := by
  rintro (h' | h') <;> simp [h'] at h

theorem State.Inv.answer (h : s.Inv) (r : Response) : (s.answer r).Inv :=
  ⟨h.memory, h.table, h.idleZero, h.inRange, h.latch, h.booted⟩

theorem State.Inv.accept (h : s.Inv) (image : Image) (rest : List PortEvent) : (s.accept image rest).Inv :=
  ⟨h.memory, h.table, h.idleZero, h.inRange, h.latch, h.booted⟩

theorem State.Inv.of_mem (h : s.Inv) {m : Memory} (hm : m.wf) : State.Inv { s with mem := m } :=
  ⟨hm, h.table, h.idleZero, h.inRange, h.latch, h.booted⟩

theorem State.Inv.of_frame (h : s.Inv) (ht : t = { s with mem := t.mem }) (hm : t.mem.wf) : t.Inv := by
  rw [ht]
  exact h.of_mem hm

theorem State.Inv.store (h : s.Inv) (a : Addr) (v : Byte) : (s.store a v).Inv := h.of_mem (State.store_wf h.memory a v)

theorem State.Inv.pending (h : s.Inv) (v : Byte) : State.Inv { s with dmaPending := v } :=
  ⟨h.memory, h.table, h.idleZero, h.inRange, h.latch, h.booted⟩

/-- In Boot, `rom_fault` may be set: the invariant forbids it in Run only. -/
theorem State.Inv.romFault (h : s.Inv) (hp : s.phase = .boot) : State.Inv { s with romFault := true } :=
  ⟨h.memory, h.table, h.idleZero, h.inRange, h.latch, fun hrun => absurd (hp.symm.trans hrun) nofun⟩

/-- A reset state: every register is 0. -/
theorem State.Inv.afterReset (h : s.Inv) (rest : List PortEvent) : (s.afterReset rest).Inv :=
  ⟨Memory.nil_wf, h.table, fun _ => ⟨rfl, rfl, rfl⟩, State.transferInRange_of_unconfigured (.inl rfl),
    ⟨fun _ => ⟨rfl, rfl⟩, nofun⟩, nofun⟩

/-- An accepted configuration is in range, and its error latch is clear. -/
theorem State.Inv.configureDma (h : s.Inv) {d : AccessKind} {p : Byte} {n : DmaLength} {a : Addr} (hlen : 1 ≤ n.toNat)
    (hin : a.toNat + n.toNat - 1 ≤ 0xFFFF) : (s.configureDma d p n a).Inv :=
  ⟨h.memory, h.table, State.idleRegistersZero_of_configured (.inl rfl), fun _ => ⟨hlen, hin⟩,
    ⟨fun _ => ⟨rfl, rfl⟩, nofun⟩, h.booted⟩

theorem State.Inv.granted (h : s.Inv) (hs : s.dmaState = .requested) : State.Inv { s with dmaState := .active } :=
  ⟨h.memory, h.table, State.idleRegistersZero_of_configured (.inr rfl), fun _ => h.inRange (.inl hs), h.latch, h.booted⟩

theorem State.Inv.acked (h : s.Inv) (hs : s.dmaState = .complete) : State.Inv { s with dmaState := .idle } :=
  ⟨h.memory, h.table, fun _ => h.idleZero (.inr hs), State.transferInRange_of_unconfigured (.inl rfl), h.latch, h.booted⟩

/-- The codes that an abort latches (R33). -/
theorem AccessFault.cause_cases (f : AccessFault) : f.cause = 0x1#4 ∨ f.cause = 0x2#4 := by
  cases f
  · exact .inl rfl
  · exact .inr rfl

theorem State.Inv.abortDma (h : s.Inv) (a : Addr) (f : AccessFault) : (s.abortDma a f).Inv :=
  ⟨h.memory, h.table, fun _ => ⟨rfl, rfl, rfl⟩, State.transferInRange_of_unconfigured (.inl rfl),
    ⟨nofun, fun _ => f.cause_cases⟩, h.booted⟩

/-- After a moved byte that was not the last one, the rest of the transfer still lies in the address space. -/
theorem State.Inv.advanceDma (h : s.Inv) (hs : s.dmaState = .active) : (s.advanceDma s.dmaStart).Inv := by
  obtain ⟨hlen, hin⟩ := h.inRange (.inr hs)
  obtain ⟨-, he⟩ | ⟨hne, he⟩ := s.advanceDma_cases s.dmaStart <;> rw [he]
  · exact ⟨h.memory, h.table, fun _ => ⟨rfl, rfl, rfl⟩, State.transferInRange_of_unconfigured (.inr rfl),
      h.latch, h.booted⟩
  · have hrest : 1 ≤ (s.dmaLen - 1#16).toNat ∧ (s.dmaStart + 1#16).toNat + (s.dmaLen - 1#16).toNat - 1 ≤ 0xFFFF := by
      bv_omega
    exact ⟨h.memory, h.table, State.idleRegistersZero_of_configured (.inr hs), fun _ => hrest, h.latch, h.booted⟩

theorem State.Inv.installed (h : s.Inv) :
    State.Inv { storeBytes 0x0000#16 Config.fwImage s with fwWritable := false } :=
  ⟨storeBytes_wf _ _ h.memory, h.table, h.idleZero, h.inRange, h.latch, h.booted⟩

theorem State.Inv.started (h : s.Inv) (hf : s.romFault = false) : State.Inv { s with phase := .run } :=
  ⟨h.memory, h.table, h.idleZero, h.inRange, h.latch, fun _ => hf⟩

theorem Effect.inv {i : Instr} (h : Effect s i t) (hinv : s.Inv) : t.Inv := by
  cases h with
  | answered r => exact hinv.answer r
  | wrote => exact (hinv.store _ _).answer _
  | configured hlen hin => exact (hinv.configureDma hlen hin).answer _
  | pendingLoaded v => exact (hinv.pending v).answer _
  | granted hs => exact (hinv.granted hs).answer _
  | stepAborted => exact (hinv.abortDma _ _).answer _
  | stepWrote hs => exact ((hinv.store _ _).advanceDma hs).answer _
  | stepRead hs => exact ((hinv.pending (s.load s.dmaStart)).advanceDma hs).answer _
  | acked hs => exact (hinv.acked hs).answer _
  | imageRejected hadm =>
    obtain ⟨hp, -⟩ := hadm
    exact (hinv.romFault hp).answer _
  | imageMalformed hadm _ _ hf =>
    obtain ⟨hp, -⟩ := hadm
    have hframe := frame_of_formatChars hf
    have hphase := (congrArg State.phase hframe).trans hp
    exact ((hinv.of_frame hframe (wf_of_formatChars hf hinv.memory)).romFault hphase).answer _
  | imageLoaded _ _ _ hf => exact (hinv.of_frame (frame_of_formatChars hf) (wf_of_formatChars hf hinv.memory)).answer _
  | installed => exact hinv.installed.answer _
  | started _ hf => exact (hinv.started hf).answer _

/-- Every request keeps the invariant. -/
theorem State.Inv.exec {i : Instr} (hinv : s.Inv) (h : Machine.exec i s = .next t) : t.Inv := (effect_of_exec h).inv hinv

end

/-- Settles O11: every register is 0, and no byte is listed. -/
theorem invariantHoldsAtReset : Obligations.InvariantHoldsAtReset :=
  ⟨Memory.nil_wf, Config.defaultTable_wf, fun _ => ⟨rfl, rfl, rfl⟩, State.transferInRange_of_unconfigured (.inl rfl),
    ⟨fun _ => ⟨rfl, rfl⟩, nofun⟩, nofun⟩

/-- Settles O12: a step does nothing, resets, runs one request or refuses one word; and each effect of a request keeps the
invariant. -/
theorem everyStepKeepsTheInvariant : Obligations.EveryStepKeepsTheInvariant := by
  intro s t hinv h
  obtain rfl | ⟨-, rest, rfl⟩ | ⟨i, image, rest, -, hx⟩ | ⟨image, rest, rfl⟩ := step_next_cases h
  · exact hinv
  · exact hinv.afterReset rest
  · exact (hinv.accept image rest).exec hx
  · exact (hinv.accept image rest).answer _

end Sys2Proof.Machine
end

section
/-! PROOFS. The bytes that a request can store (20_memory.md R51), and the statements about the bytes that stay: the locked
Firmware, the read-only regions in Run, a byte of RAM between a WRITE and a READ, and the store while DmaActive. -/

namespace Sys2Proof.Machine

/-- The request `i`, run in state `s`, can store a byte at address `a`, under the conditions of its rule (R131, R175, R141,
R161). -/
inductive StoresAt (s : State) (a : Addr) : Instr → Prop
  | write {v : Byte} {g : RegionId} (hs : s.dmaState ≠ .active) (hdec : s.decodeAddr a .write = .ok a g) :
      StoresAt s a (.write v a)
  | dmaStep {g : RegionId} (hs : s.dmaState = .active) (hd : s.dmaDir = .write) (ha : s.dmaStart = a)
      (hdec : s.decodeAddr a .write = .ok a g) : StoresAt s a .dmaStep
  | romLoad {idx : Byte} {q : Region} {k : Nat} (hadm : s.AdmitsRomLoad idx q) (himg : s.image.present = true)
      (hlen : s.image.chars.length ≤ q.capacity.toNat) (hk : k < s.image.chars.length / 8)
      (ha : a = q.base + BitVec.ofNat 16 k) : StoresAt s a (.romLoad idx)
  | fwInstall (hp : s.phase = .boot) (hf : s.fwWritable = true) (hs : s.dmaState ≠ .active) (ha : a.toNat ≤ 5) :
      StoresAt s a .fwInstall

section
variable {s t u : State} {i : Instr} {a : Addr} {r : Region}

theorem State.advanceDma_mem (s : State) (a : Addr) : (s.advanceDma a).mem = s.mem := by
  rw [State.advanceDma_frame]

theorem State.advanceDma_load (s : State) (a b : Addr) : (s.advanceDma a).load b = s.load b := by
  rw [State.load, State.load, State.advanceDma_mem]

/-- A ROM_LOAD that ran its loop leaves a byte, or it is one of the output bytes. -/
theorem load_eq_or_storesAt_of_formatChars {idx : Byte} {bad : Option MalformedBit} (hadm : s.AdmitsRomLoad idx r)
    (himg : s.image.present = true) (hlen : s.image.chars.length ≤ r.capacity.toNat)
    (hf : formatChars r.base s.image.chars 0 0x00#8 s = (u, bad)) (a : Addr) :
    u.load a = s.load a ∨ StoresAt s a (.romLoad idx) := by
  by_cases h : ∃ k, k < s.image.chars.length / 8 ∧ a = r.base + BitVec.ofNat 16 k
  · obtain ⟨k, hk, ha⟩ := h
    exact .inr (.romLoad hadm himg hlen hk ha)
  · exact .inl (load_other_of_formatChars hf fun k hk ha => h ⟨k, hk, ha⟩)

/-- A request leaves a byte as it is, or can store at its address. -/
theorem Effect.load_eq_or_storesAt (h : Effect s i t) (a : Addr) : t.load a = s.load a ∨ StoresAt s a i := by
  cases h with
  | @wrote v b g r hs hdec hr =>
    by_cases hab : a = b
    · subst hab
      exact .inr (.write hs hdec)
    · exact .inl (State.load_store_other s hab v)
  | stepWrote hs hdec hd =>
    by_cases hab : a = s.dmaStart
    · subst hab
      exact .inr (.dmaStep hs hd rfl hdec)
    · exact .inl ((State.advanceDma_load _ _ a).trans (State.load_store_other s hab s.dmaPending))
  | stepRead => exact .inl (State.advanceDma_load _ _ a)
  | imageMalformed hadm himg hlen hf => exact load_eq_or_storesAt_of_formatChars hadm himg hlen hf a
  | imageLoaded hadm himg hlen hf => exact load_eq_or_storesAt_of_formatChars hadm himg hlen hf a
  | installed hp hf hs =>
    obtain ha | ha := Nat.lt_or_ge 5 a.toNat
    · exact .inl (load_fwImage_other ha)
    · exact .inr (.fwInstall hp hf hs ha)
  | answered => exact .inl rfl
  | configured => exact .inl rfl
  | pendingLoaded => exact .inl rfl
  | granted => exact .inl rfl
  | stepAborted => exact .inl rfl
  | acked => exact .inl rfl
  | imageRejected => exact .inl rfl
  | started => exact .inl rfl

theorem load_eq_of_exec (h : exec i s = .next t) (hn : ¬StoresAt s a i) : t.load a = s.load a :=
  ((effect_of_exec h).load_eq_or_storesAt a).resolve_right hn

/-- A step that is no reset leaves a byte at which its request cannot store, whatever the request and the image. -/
theorem load_eq_of_step (h : step s = .next t) (hreset : ¬s.NextIsReset)
    (hn : ∀ i image rest, ¬StoresAt (s.accept image rest) a i) : t.load a = s.load a := by
  obtain rfl | ⟨hr, -⟩ | ⟨i, image, rest, -, hx⟩ | ⟨image, rest, rfl⟩ := step_next_cases h
  · rfl
  · exact absurd hr hreset
  · exact load_eq_of_exec (s := s.accept image rest) hx (hn i image rest)
  · rfl

/-! ### Write-protected addresses -/

/-- A write access to a protected address does not decode. -/
theorem State.decodeAddr_write_ne_ok {j : Nat} (hw : RegionTable.WF s.table) (hr : s.table[j]? = some r)
    (ha : r.holds a = true) (hp : writableBy s.fwWritable r = false) (g : RegionId) :
    s.decodeAddr a .write ≠ .ok a g := by
  obtain ⟨-, -, hw, -⟩ := hw
  rw [State.decodeAddr_write_protected hw hr ha hp]
  exact nofun

/-- Every byte that a ROM_LOAD stores lies in its region. -/
theorem holds_of_romByte {q : Region} {k n : Nat} (hle : q.base ≤ q.limit) (hlen : n ≤ q.capacity.toNat)
    (hk : k < n / 8) : q.holds (q.base + BitVec.ofNat 16 k) = true := by
  rw [q.toNat_capacity hle] at hlen
  obtain ⟨haddr, hin⟩ := toNat_base_add hle (k := k) (by omega)
  exact (q.holds_eq_true_iff _).mpr (by omega)

/-- Nothing can store in the locked Firmware region: not the accesses through the decoder; not a ROM_LOAD into it, which is
refused, nor one into another region, which is disjoint; and not FW_INSTALL, which is refused. -/
theorem not_storesAt_lockedFirmware (hw : RegionTable.WF s.table) (hr : s.table[0]? = some r) (ha : r.holds a = true)
    (hf : s.fwWritable = false) : ¬StoresAt s a i := by
  have hp : writableBy s.fwWritable r = false := by
    rw [writableBy_fwRegister _ (RegionTable.policy_of_first hw hr), hf]
  intro hstore
  cases hstore with
  | write _ hdec => exact State.decodeAddr_write_ne_ok hw hr ha hp _ hdec
  | dmaStep _ _ _ hdec => exact State.decodeAddr_write_ne_ok hw hr ha hp _ hdec
  | romLoad hadm _ hlen hk hak =>
    obtain ⟨-, hq, -, hlock⟩ := hadm
    obtain ⟨-, hle, hdisj, -⟩ := hw
    have hholds := holds_of_romByte (hle _ (List.mem_of_getElem? hq)) hlen hk
    rw [← hak] at hholds
    exact hlock ⟨RegionTable.index_eq_of_holds hdisj hq hr hholds ha, hf⟩
  | fwInstall _ hf' => exact absurd (hf.symm.trans hf') nofun

/-- Nothing can store in a read-only region in Run: ROM_LOAD and FW_INSTALL are refused, and the other accesses go through the
decoder. -/
theorem not_storesAt_readOnly_run (hw : RegionTable.WF s.table) (hp : s.phase = .run) (hr : r ∈ s.table)
    (hpol : r.policy = .constant false) (ha : r.holds a = true) : ¬StoresAt s a i := by
  obtain ⟨j, hj⟩ := List.mem_iff_getElem?.mp hr
  have hprot := writableBy_constant s.fwWritable hpol
  intro hstore
  cases hstore with
  | write _ hdec => exact State.decodeAddr_write_ne_ok hw hj ha hprot _ hdec
  | dmaStep _ _ _ hdec => exact State.decodeAddr_write_ne_ok hw hj ha hprot _ hdec
  | romLoad hadm =>
    obtain ⟨hp', -⟩ := hadm
    exact absurd (hp.symm.trans hp') nofun
  | fwInstall hp' => exact absurd (hp.symm.trans hp') nofun

end

/-- Settles O34: the lock changes by a reset only, once set, and no request stores in the locked region. -/
theorem lockedFirmwareKeepsItsBytes : Obligations.LockedFirmwareKeepsItsBytes := by
  intro s t r hinv hr hf hreset h
  obtain ⟨-, hlock⟩ := firmwareLockIsSetByFwInstallAndClearedByResetOnly
  have hkept : t.fwWritable = false := by
    by_contra hne
    obtain ⟨-, hw, -⟩ | ⟨hr', -⟩ := hlock s t h (hf ▸ hne)
    · exact absurd (hf.symm.trans hw) nofun
    · exact hreset hr'
  have hbase : r.base = 0x0000#16 := by
    obtain ⟨-, -, -, hfw⟩ := hinv.table
    obtain ⟨⟨q, hq, hb, -⟩, -⟩ := (RegionTable.wf4_iff s.table).mp hfw
    obtain rfl : r = q := Option.some.inj (hr.symm.trans hq)
    exact hb
  refine ⟨hkept, fun a ha => load_eq_of_step h hreset fun i image rest => ?_⟩
  have hholds : r.holds a = true := (r.holds_eq_true_iff a).mpr ⟨by simp [hbase], ha⟩
  exact not_storesAt_lockedFirmware (s := s.accept image rest) hinv.table hr hholds hf

/-- Settles O35: in Run no request stores in a read-only region. -/
theorem readOnlyRegionsKeepTheirBytesInRun : Obligations.ReadOnlyRegionsKeepTheirBytesInRun := by
  intro s t r a hinv hp hreset h hr hpol hbase hlimit
  refine load_eq_of_step h hreset fun i image rest => ?_
  exact not_storesAt_readOnly_run (s := s.accept image rest) hinv.table hp hr hpol
    ((r.holds_eq_true_iff a).mpr ⟨hbase, hlimit⟩)

/-! ### A byte of RAM, written and read back (41_access.md) -/

section
variable {s t u : State} {i : Instr} {a : Addr} {v : Byte}

/-- `Instr.CannotStoreAt` excludes every store of the request. -/
theorem not_storesAt_of_cannotStoreAt (hw : RegionTable.WF s.table) (h : Instr.CannotStoreAt i s a) :
    ¬StoresAt s a i := by
  intro hstore
  cases hstore with
  | write hs =>
    obtain hs' | hne := h
    · exact hs hs'
    · exact hne rfl
  | dmaStep hs hd ha =>
    obtain hs' | hd' | hne := h
    · exact hs' hs
    · exact absurd (hd.symm.trans hd') nofun
    · exact hne ha
  | @romLoad idx q k hadm himg hlen hk ha =>
    have hcap := hadm.toNat_capacity hw
    obtain ⟨hp, hq, hs, -⟩ := hadm
    obtain ⟨-, hle, -⟩ := hw
    obtain hp' | hs' | himg' | hregion := h
    · exact absurd (hp.symm.trans hp') nofun
    · exact hs hs'
    · exact absurd (himg.symm.trans himg') nofun
    · obtain hout | hbig | hne := hregion q hq
      · have hholds := holds_of_romByte (hle q (List.mem_of_getElem? hq)) hlen hk
        rw [← ha, Region.holds_eq_true_iff] at hholds
        omega
      · omega
      · exact hne k hk ha
  | fwInstall hp hf hs ha =>
    obtain hp' | hf' | hs' | hout := h
    · exact absurd (hp.symm.trans hp') nofun
    · exact absurd (hf.symm.trans hf') nofun
    · exact hs hs'
    · omega

theorem table_eq_of_exec (h : exec i s = .next t) : t.table = s.table := (effect_of_exec h).keeps_ports.1

/-- A sequence of requests none of which can store at the address leaves its byte, and the table. -/
theorem load_eq_of_execSeq {is : List Instr} (hw : RegionTable.WF s.table) (hn : NoneStoresAt is s a)
    (h : execSeq is s = .next t) : t.load a = s.load a ∧ t.table = s.table := by
  induction is generalizing s with
  | nil =>
    obtain rfl := Host.Outcome.next.inj h
    exact ⟨rfl, rfl⟩
  | cons i is ih =>
    obtain ⟨hi, hrest⟩ := hn
    obtain ⟨u, hu, he⟩ := exec_effect i s
    rw [execSeq_cons_of_next hu] at h
    have htable := table_eq_of_exec hu
    obtain ⟨hload, htab⟩ := ih (htable ▸ hw) (hrest u hu) h
    exact ⟨hload.trans (load_eq_of_exec hu (not_storesAt_of_cannotStoreAt hw hi)), htab.trans htable⟩

end

theorem defaultRegionOf_ram {a : Addr} (hlo : 0x0100 ≤ a.toNat) (hhi : a.toNat ≤ 0x6FFF) : defaultRegionOf a = 1 := by
  rw [defaultRegionOf, if_neg (by omega), if_pos hhi]

theorem defaultRegionOf_io {a : Addr} (hlo : 0x7000 ≤ a.toNat) (hhi : a.toNat ≤ 0x7FFF) : defaultRegionOf a = 2 := by
  rw [defaultRegionOf, if_neg (by omega), if_neg (by omega), if_pos hhi]

/-- Settles O23: the WRITE stores the byte, no request between can store at its address, and the READ decodes. -/
theorem readGivesTheLastByteWrittenToRam : Obligations.ReadGivesTheLastByteWrittenToRam := by
  intro s t u a v between hm ht hlo hhi hs hwrite hnone hseq hu
  have hram := defaultRegionOf_ram hlo hhi
  obtain ⟨-, -, hdec⟩ := defaultTableDecodesEveryAddress s a ht
  obtain rfl := eq_answer_of_next hwrite (execWrite_of_ok hs (hdec (.inl hram)))
  obtain ⟨hload, htable⟩ := load_eq_of_execSeq (ht ▸ Config.defaultTable_wf) hnone hseq
  have hv : u.load a = v := hload.trans (State.load_store_same hm a v)
  obtain ⟨hread, -⟩ := defaultTableDecodesEveryAddress u a (htable.trans ht)
  rw [hram] at hread
  rw [← hv]
  exact execRead_of_ok hu hread

/-- Settles O24: the default table decodes both accesses to region 2, and the store's law gives the byte. -/
theorem ioRegionIsServedByTheStore : Obligations.IoRegionIsServedByTheStore := by
  intro s a v hm ht hs hlo hhi
  have hio := defaultRegionOf_io hlo hhi
  obtain ⟨hread, -, hwrite⟩ := defaultTableDecodesEveryAddress s a ht
  rw [hio] at hread hwrite
  refine ⟨_, execWrite_of_ok hs (hwrite (.inr (.inl rfl))), rfl, ?_⟩
  have hback := execRead_of_ok (s := (s.store a v).answer { status := .ok, region := 2#3, addr := a }) hs hread
  rwa [State.answer_load, State.load_store_same hm] at hback

/-! ### The store while DmaActive (20_memory.md section 5) -/

/-- In DmaActive a request but DMA_STEP leaves the store: every other one that writes it is refused. -/
theorem Effect.mem_eq_of_active {s t : State} {i : Instr} (h : Effect s i t) (hs : s.dmaState = .active) :
    t.mem = s.mem ∨ i = .dmaStep := by
  cases h with
  | wrote hs' => exact absurd hs hs'
  | imageMalformed hadm =>
    obtain ⟨-, -, hs', -⟩ := hadm
    exact absurd hs hs'
  | imageLoaded hadm =>
    obtain ⟨-, -, hs', -⟩ := hadm
    exact absurd hs hs'
  | installed _ _ hs' => exact absurd hs hs'
  | stepWrote => exact .inr rfl
  | stepRead => exact .inr rfl
  | stepAborted => exact .inr rfl
  | answered => exact .inl rfl
  | configured => exact .inl rfl
  | pendingLoaded => exact .inl rfl
  | granted => exact .inl rfl
  | acked => exact .inl rfl
  | imageRejected => exact .inl rfl
  | started => exact .inl rfl

/-- Settles O55: of the effects that write the store, only DMA_STEP's happens in DmaActive. -/
theorem onlyDmaStepTouchesMemoryWhileActive : Obligations.OnlyDmaStepTouchesMemoryWhileActive := by
  intro s t hs h hne
  obtain rfl | ⟨hreset, -⟩ | ⟨i, image, rest, hi, hx⟩ | ⟨image, rest, rfl⟩ := step_next_cases h
  · exact absurd rfl hne
  · exact .inr hreset
  · obtain hmem | rfl := (effect_of_exec hx).mem_eq_of_active (s := s.accept image rest) hs
    · exact absurd hmem hne
    · exact .inl hi
  · exact absurd rfl hne

end Sys2Proof.Machine
end

section
/-! PROOFS. Statuses over all requests (60_exceptions.md section 1): what a non-OK response leaves unchanged (R214), and when
ILLEGAL_REQUEST is answered (R211). -/

namespace Sys2Proof.Machine

/-! ### A non-OK response (R214) -/

/-- The count of a malformed character's response is its offset: an image has fewer than 2^32 characters. -/
theorem toNat_offset_of_formatChars {base : Addr} {s t : State} {bad : MalformedBit}
    (hf : formatChars base s.image.chars 0 0x00#8 s = (t, some bad)) :
    (BitVec.ofNat 32 bad.offset).toNat = bad.offset := by
  obtain ⟨-, hlt, -⟩ := formatChars_stopped hf
  have hfits := s.image.fits
  rw [BitVec.toNat_ofNat, Nat.mod_eq_of_lt (by omega)]

/-- A malformed character ends the load with the complete groups before it stored, and no other byte. -/
theorem load_other_of_malformed {base a : Addr} {cs : List Byte} {s t : State} {bad : MalformedBit}
    (hf : formatChars base cs 0 0x00#8 s = (t, some bad))
    (ha : ∀ k, k < bad.offset / 8 → a ≠ base + BitVec.ofNat 16 k) : t.load a = s.load a := by
  obtain ⟨-, -, hother⟩ := formatChars_stopped hf
  exact hother a fun j _ hj h7 => ha (j / 8) (by omega)

/-- Settles O56: of the effects, those that answer OK are excluded, and the others are the cases listed. -/
theorem nonOkResponseChangesNothingElse : Obligations.NonOkResponseChangesNothingElse := by
  intro i s t r h hr hbad
  cases effect_of_exec h
  case answered => exact .inl rfl
  all_goals obtain rfl := Option.some.inj hr
  case stepAborted f g hs hdec => exact .inr (.inl ⟨rfl, rfl, hs, f, g, hdec, rfl, rfl⟩)
  case imageRejected idx q _ hadm hst => exact .inr (.inr (.inl ⟨hst, ⟨idx, rfl⟩, rfl⟩))
  case imageMalformed idx q u bad hadm himg hlen hf =>
    obtain ⟨-, hq, -, -⟩ := hadm
    have hframe := congrArg (fun v : State => { v with romFault := true }) (frame_of_formatChars hf)
    refine .inr (.inr (.inr ⟨rfl, idx, q, rfl, hq, congrArg (State.answer · _) hframe, fun a ha => ?_⟩))
    rw [toNat_offset_of_formatChars hf] at ha
    exact load_other_of_malformed (t := u) hf ha
  case wrote hok | configured hok | stepWrote hok | stepRead hok | imageLoaded hok | installed hok =>
    exact absurd hok hbad
  case pendingLoaded | granted | acked | started => exact absurd rfl hbad

/-! ### ILLEGAL_REQUEST (R211) -/

/-- The legal words that a state refuses as illegal requests. -/
def State.RefusesAsIllegal (s : State) : Instr → Prop
  | .regionQuery idx => s.table.length ≤ idx.toNat
  | .romLoad idx => s.phase = .run ∨ s.table.length ≤ idx.toNat
  | .fwInstall => s.phase = .run ∨ s.fwWritable = false
  | .start => s.phase = .run ∨ s.romFault = true
  | _ => False

theorem State.refusesAsIllegal_iff (s : State) (i : Instr) :
    s.RefusesAsIllegal i ↔
      (∃ idx, (i = .regionQuery idx ∨ i = .romLoad idx) ∧ s.table.length ≤ idx.toNat) ∨
      (s.phase = .run ∧ ((∃ idx, i = .romLoad idx) ∨ i = .fwInstall ∨ i = .start)) ∨
      (i = .fwInstall ∧ s.fwWritable = false) ∨ (i = .start ∧ s.romFault = true) := by
  cases i <;> simp [State.RefusesAsIllegal, or_comm]

section
variable {s t u : State} {i : Instr} {r : Response} {o : Host.Outcome State Fault Refusal}

theorem exec_of_refusesAsIllegal (h : s.RefusesAsIllegal i) :
    exec i s = .next (s.answer { status := .illegalRequest }) := by
  cases i with
  | regionQuery idx => exact execRegionQuery_of_no_entry (List.getElem?_eq_none h)
  | romLoad idx => exact h.elim execRomLoad_of_run execRomLoad_of_no_entry
  | fwInstall => exact h.elim execFwInstall_of_run execFwInstall_of_locked
  | start => exact h.elim execStart_of_run execStart_of_romFault
  | _ => exact h.elim

theorem AccessFault.status_ne_illegalRequest (f : AccessFault) : f.status ≠ .illegalRequest := by
  cases f <;> decide

theorem status_ne_illegal_of_answer (h : o = .next t) (hu : o = .next (u.answer r)) (hr : r.status ≠ .illegalRequest) :
    t.status? ≠ some .illegalRequest := by
  rw [status?_of_next_answer h hu]
  simpa using hr

theorem Phase.eq_boot_of_ne_run {p : Phase} (h : p ≠ .run) : p = .boot := by
  cases p
  · rfl
  · exact absurd rfl h

theorem loadImage_status_ne_illegal {idx : Byte} {q : Region} (h : loadImage idx q s = .next t) :
    t.status? ≠ some .illegalRequest := by
  cases himg : s.image.present with
  | false => exact status_ne_illegal_of_answer h (loadImage_of_absent himg) nofun
  | true =>
    obtain hlen | hlen := Nat.lt_or_ge q.capacity.toNat s.image.chars.length
    · exact status_ne_illegal_of_answer h (loadImage_of_tooLarge himg hlen) nofun
    · match hf : formatChars q.base s.image.chars 0 0x00#8 s with
      | (u, some bad) => exact status_ne_illegal_of_answer h (loadImage_of_malformed himg hlen hf) nofun
      | (u, none) => exact status_ne_illegal_of_answer h (loadImage_of_packed himg hlen hf) nofun

theorem execRomLoad_status_ne_illegal {idx : Byte} (h : execRomLoad idx s = .next t) (hp : s.phase = .boot)
    (hidx : idx.toNat < s.table.length) : t.status? ≠ some .illegalRequest := by
  obtain ⟨q, hq⟩ : ∃ q, s.table[idx.toNat]? = some q := ⟨_, List.getElem?_eq_getElem hidx⟩
  by_cases hs : s.dmaState = .active
  · exact status_ne_illegal_of_answer h (execRomLoad_of_active hs hp hidx) nofun
  · by_cases hlock : idx.toNat = 0 ∧ s.fwWritable = false
    · obtain ⟨h0, hf⟩ := hlock
      rw [h0] at hq
      exact status_ne_illegal_of_answer h (execRomLoad_of_locked hp h0 hq hs hf) nofun
    · exact loadImage_status_ne_illegal ((execRomLoad_of_admits ⟨hp, hq, hs, hlock⟩).symm.trans h)

theorem execFwInstall_status_ne_illegal (h : execFwInstall s = .next t) (hp : s.phase = .boot)
    (hf : s.fwWritable = true) : t.status? ≠ some .illegalRequest := by
  by_cases hs : s.dmaState = .active
  · exact status_ne_illegal_of_answer h (execFwInstall_of_active hs hp hf) nofun
  · exact status_ne_illegal_of_answer h (execFwInstall_of_boot hp hf hs) nofun

theorem execDmaConfig_status_ne_illegal {d : AccessKind} {p : Byte} {n : DmaLength} {a : Addr}
    (h : execDmaConfig d p n a s = .next t) : t.status? ≠ some .illegalRequest := by
  unfold execDmaConfig at h
  split_ifs at h <;> exact status_ne_illegal_of_answer h rfl nofun

/-- Outside the listed conditions no request answers ILLEGAL_REQUEST. -/
theorem exec_status_ne_illegal (h : exec i s = .next t) (hn : ¬s.RefusesAsIllegal i) :
    t.status? ≠ some .illegalRequest := by
  cases i with
  | resolve kind a =>
    cases hdec : s.decodeAddr a kind with
    | ok o g => exact status_ne_illegal_of_answer h (execResolve_of_ok hdec) nofun
    | fail f g => exact status_ne_illegal_of_answer h (execResolve_of_fail hdec) f.status_ne_illegalRequest
  | read a =>
    by_cases hs : s.dmaState = .active
    · exact status_ne_illegal_of_answer h (execRead_of_active hs) nofun
    · cases hdec : s.decodeAddr a .read with
      | ok o g => exact status_ne_illegal_of_answer h (execRead_of_ok hs hdec) nofun
      | fail f g => exact status_ne_illegal_of_answer h (execRead_of_fail hs hdec) f.status_ne_illegalRequest
  | write v a =>
    by_cases hs : s.dmaState = .active
    · exact status_ne_illegal_of_answer h (execWrite_of_active hs) nofun
    · cases hdec : s.decodeAddr a .write with
      | ok o g => exact status_ne_illegal_of_answer h (execWrite_of_ok hs hdec) nofun
      | fail f g => exact status_ne_illegal_of_answer h (execWrite_of_fail hs hdec) f.status_ne_illegalRequest
  | dmaConfig d p n a => exact execDmaConfig_status_ne_illegal h
  | dmaLoadPending v => exact status_ne_illegal_of_answer h (respond_eq ..) nofun
  | dmaReadPending => exact status_ne_illegal_of_answer h (respond_eq ..) nofun
  | dmaGrant =>
    obtain ⟨-, hr⟩ | ⟨-, hr⟩ := execDmaGrant_cases s
    · exact status_ne_illegal_of_answer h hr nofun
    · exact status_ne_illegal_of_answer h hr nofun
  | dmaStep =>
    obtain ⟨-, hr⟩ | ⟨-, f, g, r, -, hst, hr⟩ | ⟨-, -, g, r, -, hst, hr⟩ | ⟨-, -, g, r, -, hst, hr⟩ :=
      execDmaStep_cases s
    · exact status_ne_illegal_of_answer h hr nofun
    · exact status_ne_illegal_of_answer h hr (by simp [hst])
    · exact status_ne_illegal_of_answer h hr (by simp [hst])
    · exact status_ne_illegal_of_answer h hr (by simp [hst])
  | dmaAck =>
    obtain ⟨-, hr⟩ | ⟨-, hr⟩ := execDmaAck_cases s
    · exact status_ne_illegal_of_answer h hr nofun
    · exact status_ne_illegal_of_answer h hr nofun
  | dmaStatus => exact status_ne_illegal_of_answer h (respond_eq ..) nofun
  | romLoad idx =>
    obtain ⟨hp, hidx⟩ := not_or.mp hn
    exact execRomLoad_status_ne_illegal h (Phase.eq_boot_of_ne_run hp) (Nat.not_le.mp hidx)
  | fwInstall =>
    obtain ⟨hp, hf⟩ := not_or.mp hn
    exact execFwInstall_status_ne_illegal h (Phase.eq_boot_of_ne_run hp) (Bool.eq_true_of_not_eq_false hf)
  | start =>
    obtain ⟨hp, hf⟩ := not_or.mp hn
    have hr := execStart_of_boot (Phase.eq_boot_of_ne_run hp) (Bool.eq_false_of_not_eq_true hf)
    exact status_ne_illegal_of_answer h hr nofun
  | regionQuery idx =>
    have hq : s.region? idx = some _ := List.getElem?_eq_getElem (Nat.not_le.mp hn)
    exact status_ne_illegal_of_answer h (execRegionQuery_of_entry hq) nofun

theorem wf_of_step_eq_next (h : step s = .next t) : RegionTable.WF s.table := by
  by_contra hw
  exact absurd (((step_eq_refused_iff s).mpr hw).symm.trans h) nofun

theorem not_illegalWord_of_decode_ok {w : RequestWord} (h : decode w = .ok i) : ¬IllegalWord w := by
  intro hbad
  obtain ⟨e, he⟩ := exists_decode_eq_error_of_illegal hbad
  exact absurd (h.symm.trans he) nofun

end

/-- Settles O57: a refused word is answered so; of the accepted words, exactly those of the listed conditions are. -/
theorem illegalRequestExactlyInTheListedCases : Obligations.IllegalRequestExactlyInTheListedCases := by
  intro s t w image rest hin h
  rw [step_of_request (wf_of_step_eq_next h) hin] at h
  cases hdec : decode w with
  | error e =>
    have hbad : IllegalWord w := (decoderRefusesExactlyTheIllegalWords w).mp ⟨e, hdec⟩
    obtain rfl := eq_answer_of_next h (serve_of_decode_error hdec)
    exact ⟨⟨fun _ => .inl hbad, fun _ => rfl⟩, fun _ => rfl⟩
  | ok i =>
    rw [serve_of_decode_ok hdec] at h
    have hlisted := State.refusesAsIllegal_iff (s.accept image rest) i
    have hgood := not_illegalWord_of_decode_ok hdec
    simp only [Except.ok.injEq, hgood, false_or]
    by_cases hill : (s.accept image rest).RefusesAsIllegal i
    · obtain rfl := eq_answer_of_next h (exec_of_refusesAsIllegal hill)
      exact ⟨⟨fun _ => hlisted.mp hill, fun _ => rfl⟩, fun _ => rfl⟩
    · have hne := exec_status_ne_illegal h hill
      exact ⟨⟨fun hst => absurd hst hne, fun hc => absurd (hlisted.mpr hc) hill⟩, fun hst => absurd hst hne⟩

end Sys2Proof.Machine
end

section
/-! PROOFS. The bus owner (10_state.md R34, 20_memory.md section 5), the decoding of DMA accesses (44_dma_arbiter.md R183), and
the requests that do not access memory (20_memory.md R51). -/

namespace Sys2Proof.Machine

/-! ### The bus changes hands -/

theorem State.busOwner_of_active {s : State} (h : s.dmaState = .active) : s.busOwner = .dma := if_pos h

/-- The two ways the bus changes hands by a request: the grant, and the end of a transfer. -/
theorem ownerChanges_of_exec {i : Instr} {s t : State} (h : exec i s = .next t) (ho : s.OwnerChanges t) :
    (i = .dmaGrant ∧ s.busOwner = .cpu ∧ t.busOwner = .dma) ∨
      (i = .dmaStep ∧ s.busOwner = .dma ∧ t.busOwner = .cpu) := by
  have owner {u : State} {d : DmaState} (hu : u.dmaState = d) : u.busOwner = if d = .active then .dma else .cpu := by
    rw [← hu]
    rfl
  obtain hkept | hlisted := exec_listed h
  · exact absurd (by rw [owner hkept.symm, owner rfl]) ho
  · obtain ⟨hs, ht, -⟩ | ⟨hs, ht, hi⟩ | ⟨hs, ht, hi, -⟩ | ⟨hs, ht, hi, -⟩ | ⟨hs, ht, -⟩ := hlisted
    · exact absurd ((owner hs).trans (owner ht).symm) ho
    · exact .inl ⟨hi, owner hs, owner ht⟩
    · exact .inr ⟨hi, owner hs, owner ht⟩
    · exact .inr ⟨hi, owner hs, owner ht⟩
    · exact absurd ((owner hs).trans (owner ht).symm) ho

/-- Settles O52: of the listed transitions, DMA_GRANT's and DMA_STEP's change the owner; a reset gives the bus to the CPU. -/
theorem busChangesHandsByArbiterAndEngineOnly : Obligations.BusChangesHandsByArbiterAndEngineOnly := by
  intro s t h ho
  obtain rfl | ⟨hreset, rest, rfl⟩ | ⟨i, image, rest, hi, hx⟩ | ⟨image, rest, rfl⟩ := step_next_cases h
  · exact absurd rfl ho
  · refine .inr (.inr ⟨hreset, ?_, rfl⟩)
    by_contra hne
    exact ho (State.busOwner_of_ne_active fun hs => hne (State.busOwner_of_active hs))
  · obtain ⟨rfl, hs, ht⟩ | ⟨rfl, hs, ht⟩ := ownerChanges_of_exec (s := s.accept image rest) hx ho
    · exact .inl ⟨_, hi, rfl, hs, ht⟩
    · exact .inr (.inl ⟨_, hi, rfl, hs, ht⟩)
  · exact absurd rfl ho

/-! ### DMA accesses and CPU accesses -/

section
variable {s t u : State} {f f' : AccessFault} {g : RegionId}

theorem AccessFault.cause_inj : f.cause = f'.cause ↔ f = f' := by
  cases f <;> cases f' <;> decide

theorem AccessFault.status_inj : f.status = f'.status ↔ f = f' := by
  cases f <;> cases f' <;> decide

theorem AccessFault.status_ne_ok (f : AccessFault) : f.status ≠ .ok := by
  cases f <;> decide

/-- The CPU's access to the byte that a DMA_STEP would move. -/
def State.cpuAccess (s : State) : Instr := if s.dmaDir = .write then .write s.dmaPending s.dmaStart else .read s.dmaStart

theorem State.cpuAccess_of_read (hd : s.dmaDir = .read) : s.cpuAccess = .read s.dmaStart := if_neg (by simp [hd])

theorem State.cpuAccess_of_write (hd : s.dmaDir = .write) : s.cpuAccess = .write s.dmaPending s.dmaStart := if_pos hd

/-- With the bus with the CPU, that access answers what the decoder answers in the direction of the transfer. -/
theorem cpuAccess_status_of_fail (hdec : s.decodeAddr s.dmaStart s.dmaDir = .fail f g)
    (h : exec s.cpuAccess { s with dmaState := .idle } = .next u) : u.status? = some f.status := by
  cases hd : s.dmaDir <;> rw [hd] at hdec
  · rw [State.cpuAccess_of_read hd] at h
    exact status?_of_next_answer h (execRead_of_fail (s := { s with dmaState := .idle }) nofun hdec)
  · rw [State.cpuAccess_of_write hd] at h
    exact status?_of_next_answer h (execWrite_of_fail (s := { s with dmaState := .idle }) nofun hdec)

theorem cpuAccess_status_of_ok {o : Addr} (hdec : s.decodeAddr s.dmaStart s.dmaDir = .ok o g)
    (h : exec s.cpuAccess { s with dmaState := .idle } = .next u) : u.status? = some .ok := by
  cases hd : s.dmaDir <;> rw [hd] at hdec
  · rw [State.cpuAccess_of_read hd] at h
    exact status?_of_next_answer h (execRead_of_ok (s := { s with dmaState := .idle }) nofun hdec)
  · rw [State.cpuAccess_of_write hd] at h
    exact status?_of_next_answer h (execWrite_of_ok (s := { s with dmaState := .idle }) nofun hdec)

end

/-- Settles O50: one decode decides both; its failure is the cause of the abort and the status of the access, and without one
both answer OK. -/
theorem dmaIsDecodedLikeTheCpu : Obligations.DmaIsDecodedLikeTheCpu := by
  intro s t u f hs hstep haccess
  change exec s.cpuAccess _ = _ at haccess
  cases execDmaStep_move hstep with
  | noEffect hn => exact absurd hs hn
  | moved _ hdec _ hst =>
    rw [hst, cpuAccess_status_of_ok hdec haccess]
    exact ⟨fun ⟨habort, _⟩ => absurd habort nofun, fun h => absurd (Option.some.inj h).symm f.status_ne_ok⟩
  | @aborted f' g _ hdec _ hst =>
    obtain rfl := eq_answer_of_next hstep (execDmaStep_of_fail hs hdec)
    rw [cpuAccess_status_of_fail hdec haccess, Option.some.injEq, AccessFault.status_inj]
    exact ⟨fun ⟨_, hcause⟩ => AccessFault.cause_inj.mp hcause, fun h => ⟨hst, AccessFault.cause_inj.mpr h⟩⟩

/-! ### Independence of memory (R51) -/

/-- The request leaves the memory of `s`, and with the memory `m` in its place it leaves all else the same. -/
def IndependentOfMemory (i : Instr) (s : State) (m : Memory) : Prop :=
  ∃ t, exec i s = .next t ∧ t.mem = s.mem ∧ exec i { s with mem := m } = .next { t with mem := m }

section
variable (s : State) (m : Memory)

theorem resolve_independentOfMemory (kind : AccessKind) (a : Addr) : IndependentOfMemory (.resolve kind a) s m := by
  cases hdec : s.decodeAddr a kind with
  | ok o g => exact ⟨_, execResolve_of_ok hdec, rfl, execResolve_of_ok (s := { s with mem := m }) hdec⟩
  | fail f g => exact ⟨_, execResolve_of_fail hdec, rfl, execResolve_of_fail (s := { s with mem := m }) hdec⟩

theorem regionQuery_independentOfMemory (idx : Byte) : IndependentOfMemory (.regionQuery idx) s m := by
  cases hq : s.region? idx with
  | some q => exact ⟨_, execRegionQuery_of_entry hq, rfl, execRegionQuery_of_entry (s := { s with mem := m }) hq⟩
  | none => exact ⟨_, execRegionQuery_of_no_entry hq, rfl, execRegionQuery_of_no_entry (s := { s with mem := m }) hq⟩

theorem dmaConfig_independentOfMemory (d : AccessKind) (p : Byte) (n : DmaLength) (a : Addr) :
    IndependentOfMemory (.dmaConfig d p n a) s m := by
  simp only [IndependentOfMemory, exec, execDmaConfig]
  split_ifs <;> exact ⟨_, rfl, rfl, rfl⟩

theorem dmaGrant_independentOfMemory : IndependentOfMemory .dmaGrant s m := by
  simp only [IndependentOfMemory, exec, execDmaGrant]
  split_ifs <;> exact ⟨_, rfl, rfl, rfl⟩

theorem dmaAck_independentOfMemory : IndependentOfMemory .dmaAck s m := by
  simp only [IndependentOfMemory, exec, execDmaAck]
  split_ifs <;> exact ⟨_, rfl, rfl, rfl⟩

theorem start_independentOfMemory : IndependentOfMemory .start s m := by
  simp only [IndependentOfMemory, exec, execStart]
  split_ifs <;> exact ⟨_, rfl, rfl, rfl⟩

end

/-- Settles O54: each listed request tests registers and the table only, so it takes the same branch with any memory. -/
theorem listedRequestsDoNotAccessMemory : Obligations.ListedRequestsDoNotAccessMemory := by
  intro i s m havoid
  cases i with
  | resolve kind a => exact resolve_independentOfMemory s m kind a
  | regionQuery idx => exact regionQuery_independentOfMemory s m idx
  | dmaConfig d p n a => exact dmaConfig_independentOfMemory s m d p n a
  | dmaGrant => exact dmaGrant_independentOfMemory s m
  | dmaAck => exact dmaAck_independentOfMemory s m
  | start => exact start_independentOfMemory s m
  | dmaLoadPending v => exact ⟨_, rfl, rfl, rfl⟩
  | dmaReadPending => exact ⟨_, rfl, rfl, rfl⟩
  | dmaStatus => exact ⟨_, rfl, rfl, rfl⟩
  | read | write | dmaStep | romLoad | fwInstall => exact havoid.elim

end Sys2Proof.Machine
end

section
/-! PROOFS. DMA transfers (44_dma_arbiter.md sections 2 and 3): the two steps that move a byte, whole transfers in each
direction, the abort at a protected byte, and the return to Idle. -/

namespace Sys2Proof.Machine

/-! ### One moved byte (R175, R176) -/

/-- The response of a step that moved the byte `v`. -/
def State.movedResponse (s : State) (g : RegionId) (v : Byte) : Response :=
  { status := .ok, region := g, addr := s.dmaStart, data := v, count := (s.dmaLen - 1#16).setWidth 32 }

/-- The state after a byte that was not the last one, with the store `m` and the pending byte `p`. -/
def State.byteMoved (s : State) (m : Memory) (p : Byte) (r : Response) : State :=
  { s with mem := m, dmaPending := p, dmaStart := s.dmaStart + 1#16, dmaLen := s.dmaLen - 1#16, response := some r }

/-- The state after the last byte of a transfer, with the store `m` and the pending byte `p`. -/
def State.transferDone (s : State) (m : Memory) (p : Byte) (r : Response) : State :=
  { s with
    mem := m, dmaPending := p, dmaState := .complete, dmaStart := 0x0000#16, dmaLen := 0x0000#16, dmaDir := .read,
    response := some r }

section Step
variable {s : State} {g : RegionId}

theorem State.advanceDma_of_last {s : State} (a : Addr) (h : s.dmaLen = 1#16) :
    s.advanceDma a = { s with
      dmaState := .complete, dmaStart := 0x0000#16, dmaLen := 0x0000#16, dmaDir := .read } := by
  obtain ⟨-, he⟩ | ⟨hne, -⟩ := s.advanceDma_cases a
  · exact he
  · exact absurd h hne

theorem State.advanceDma_of_more {s : State} (a : Addr) (h : s.dmaLen ≠ 1#16) :
    s.advanceDma a = { s with dmaLen := s.dmaLen - 1#16, dmaStart := a + 1#16 } := by
  obtain ⟨hlast, -⟩ | ⟨-, he⟩ := s.advanceDma_cases a
  · exact absurd hlast h
  · exact he

theorem execDmaStep_of_write (hs : s.dmaState = .active) (hd : s.dmaDir = .write)
    (hdec : s.decodeAddr s.dmaStart .write = .ok s.dmaStart g) :
    execDmaStep s = .next (((s.store s.dmaStart s.dmaPending).advanceDma s.dmaStart).answer
      (s.movedResponse g s.dmaPending)) := by
  simp [execDmaStep, hs, hd, hdec, stepMoved, State.movedResponse, lengthCount]

theorem execDmaStep_of_read (hs : s.dmaState = .active) (hd : s.dmaDir = .read)
    (hdec : s.decodeAddr s.dmaStart .read = .ok s.dmaStart g) :
    execDmaStep s = .next ((State.advanceDma { s with dmaPending := s.load s.dmaStart } s.dmaStart).answer
      (s.movedResponse g (s.load s.dmaStart))) := by
  simp [execDmaStep, hs, hd, hdec, stepMoved, State.movedResponse, lengthCount]

theorem execDmaStep_write_last (hs : s.dmaState = .active) (hd : s.dmaDir = .write)
    (hdec : s.decodeAddr s.dmaStart .write = .ok s.dmaStart g) (hlen : s.dmaLen = 1#16) :
    exec .dmaStep s = .next (s.transferDone (s.store s.dmaStart s.dmaPending).mem s.dmaPending
      (s.movedResponse g s.dmaPending)) := by
  rw [exec, execDmaStep_of_write hs hd hdec, State.advanceDma_of_last (s := s.store _ _) _ hlen]
  rfl

theorem execDmaStep_write_more (hs : s.dmaState = .active) (hd : s.dmaDir = .write)
    (hdec : s.decodeAddr s.dmaStart .write = .ok s.dmaStart g) (hlen : s.dmaLen ≠ 1#16) :
    exec .dmaStep s = .next (s.byteMoved (s.store s.dmaStart s.dmaPending).mem s.dmaPending
      (s.movedResponse g s.dmaPending)) := by
  rw [exec, execDmaStep_of_write hs hd hdec, State.advanceDma_of_more (s := s.store _ _) _ hlen]
  rfl

theorem execDmaStep_read_last (hs : s.dmaState = .active) (hd : s.dmaDir = .read)
    (hdec : s.decodeAddr s.dmaStart .read = .ok s.dmaStart g) (hlen : s.dmaLen = 1#16) :
    exec .dmaStep s = .next (s.transferDone s.mem (s.load s.dmaStart) (s.movedResponse g (s.load s.dmaStart))) := by
  rw [exec, execDmaStep_of_read hs hd hdec,
    State.advanceDma_of_last (s := { s with dmaPending := s.load s.dmaStart }) _ hlen]
  rfl

theorem execDmaStep_read_more (hs : s.dmaState = .active) (hd : s.dmaDir = .read)
    (hdec : s.decodeAddr s.dmaStart .read = .ok s.dmaStart g) (hlen : s.dmaLen ≠ 1#16) :
    exec .dmaStep s = .next (s.byteMoved s.mem (s.load s.dmaStart) (s.movedResponse g (s.load s.dmaStart))) := by
  rw [exec, execDmaStep_of_read hs hd hdec,
    State.advanceDma_of_more (s := { s with dmaPending := s.load s.dmaStart }) _ hlen]
  rfl

/-- After the last byte no byte is left. -/
theorem State.movedResponse_of_last (hlen : s.dmaLen = 1#16) (g : RegionId) (v : Byte) :
    s.movedResponse g v = { status := .ok, region := g, addr := s.dmaStart, data := v, count := 0#32 } := by
  rw [State.movedResponse, hlen]
  rfl

end Step

/-- Settles O41: the last byte completes the transfer and any other one advances it; either way the step is one store. -/
theorem dmaStepWritesOneByte : Obligations.DmaStepWritesOneByte := by
  intro s g hm hs hd hdec
  by_cases hlen : s.dmaLen = 1#16
  · refine ⟨_, execDmaStep_write_last hs hd hdec hlen, fun _ => ?_, fun hne => absurd hlen hne,
      State.load_store_same hm _ _, fun a ha => State.load_store_other s ha _⟩
    rw [State.movedResponse_of_last hlen]
    rfl
  · exact ⟨_, execDmaStep_write_more hs hd hdec hlen, fun h => absurd h hlen, fun _ => rfl,
      State.load_store_same hm _ _, fun a ha => State.load_store_other s ha _⟩

/-- Settles O42: the step loads the pending register, and the bookkeeping is that of the other direction. -/
theorem dmaStepReadsOneByte : Obligations.DmaStepReadsOneByte := by
  refine fun s g hs hd hdec => ⟨fun hlen => ?_, fun hlen => execDmaStep_read_more hs hd hdec hlen⟩
  rw [execDmaStep_read_last hs hd hdec hlen, State.movedResponse_of_last hlen]
  rfl

/-! ### The bytes of a transfer -/

/-- The first `n` bytes of the transfer decode for the given access. -/
def State.TransferDecodes (s : State) (n : Nat) (kind : AccessKind) : Prop :=
  ∀ k, k < n → ∃ g, s.decodeAddr (s.dmaStart + BitVec.ofNat 16 k) kind = .ok (s.dmaStart + BitVec.ofNat 16 k) g

section Bytes
variable {s t : State} {n : Nat} {kind : AccessKind}

theorem State.TransferDecodes.first (h : s.TransferDecodes (n + 1) kind) :
    ∃ g, s.decodeAddr s.dmaStart kind = .ok s.dmaStart g := by
  simpa using h 0 n.succ_pos

/-- The bytes after the first, seen from the next address. -/
theorem State.TransferDecodes.rest (h : s.TransferDecodes (n + 1) kind) (m : Memory) (p : Byte) (r : Response) :
    (s.byteMoved m p r).TransferDecodes n kind := by
  intro k hk
  obtain ⟨g, hg⟩ := h (k + 1) (by omega)
  rw [addr_add_succ] at hg
  exact ⟨g, hg⟩

/-- Stores see the backing store only. -/
theorem storeBytes_mem_congr (h : t.mem = s.mem) (a : Addr) (vs : List Byte) :
    (storeBytes a vs t).mem = (storeBytes a vs s).mem := by
  induction vs generalizing a s t with
  | nil => exact h
  | cons v vs ih => exact ih (by rw [State.store_mem, State.store_mem, h]) (a + 1#16)

/-- The stores after a moved byte go on where it was stored. -/
theorem storeBytes_byteMoved (s : State) (v p : Byte) (vs : List Byte) (r : Response) :
    (storeBytes (s.dmaStart + 1#16) vs (s.byteMoved (s.store s.dmaStart v).mem p r)).mem =
      (storeBytes s.dmaStart (v :: vs) s).mem :=
  storeBytes_mem_congr (s := s.store s.dmaStart v) (t := s.byteMoved (s.store s.dmaStart v).mem p r) rfl _ vs

theorem transferDone_byteMoved (s : State) (v p q : Byte) (vs : List Byte) (r r' : Response) :
    (s.byteMoved (s.store s.dmaStart v).mem p r).transferDone
        (storeBytes (s.dmaStart + 1#16) vs (s.byteMoved (s.store s.dmaStart v).mem p r)).mem q r' =
      s.transferDone (storeBytes s.dmaStart (v :: vs) s).mem q r' :=
  congrArg (s.transferDone · q r') (storeBytes_byteMoved s v p vs r)

theorem dmaLen_eq_one (h : s.dmaLen.toNat = 1) : s.dmaLen = 1#16 := BitVec.eq_of_toNat_eq h

theorem dmaLen_ne_one (h : 1 < s.dmaLen.toNat) : s.dmaLen ≠ 1#16 := by
  intro he
  simp [he] at h

theorem toNat_dmaLen_byteMoved (h : s.dmaLen.toNat = n + 1) (m : Memory) (p : Byte) (r : Response) :
    (s.byteMoved m p r).dmaLen.toNat = n := by
  have hlt := s.dmaLen.isLt
  simp only [State.byteMoved]
  bv_omega

end Bytes

/-! ### Whole transfers -/

/-- A Write transfer of `n + 1` writable bytes: the same byte at each address, then complete. -/
theorem execSeq_write_transfer {n : Nat} {s : State} (hs : s.dmaState = .active) (hd : s.dmaDir = .write)
    (hlen : s.dmaLen.toNat = n + 1) (hdec : s.TransferDecodes (n + 1) .write) :
    ∃ r, r.status = .ok ∧ execSeq (List.replicate (n + 1) .dmaStep) s =
      .next (s.transferDone (storeBytes s.dmaStart (List.replicate (n + 1) s.dmaPending) s).mem s.dmaPending r) := by
  induction n generalizing s with
  | zero =>
    obtain ⟨g, hg⟩ := hdec.first
    exact ⟨_, rfl, execSeq_cons_of_next (execDmaStep_write_last hs hd hg (dmaLen_eq_one hlen))⟩
  | succ n ih =>
    obtain ⟨g, hg⟩ := hdec.first
    have hstep := execDmaStep_write_more hs hd hg (dmaLen_ne_one (by omega))
    obtain ⟨r, hr, hseq⟩ := ih (s := s.byteMoved _ _ _) hs hd (toNat_dmaLen_byteMoved hlen _ _ _) (hdec.rest _ _ _)
    rw [List.replicate_succ, execSeq_cons_of_next hstep]
    exact ⟨r, hr, hseq.trans (congrArg _ (transferDone_byteMoved s s.dmaPending _ _ _ _ r))⟩

/-- Settles O47: the bytes are consecutive stores of the pending byte, fewer than 65536 of them. -/
theorem writeTransferWritesExactlyItsBytes : Obligations.WriteTransferWritesExactlyItsBytes := by
  rintro (_ | n) s hinv hs hd hlen hdec
  · obtain ⟨hpos, -⟩ := hinv.inRange (.inr hs)
    omega
  · have hbound := s.dmaLen.isLt
    obtain ⟨r, hr, hseq⟩ := execSeq_write_transfer hs hd hlen hdec
    refine ⟨_, hseq, congrArg some hr, rfl, fun k hk => ?_, fun a ha => ?_⟩
    · exact storeBytes_load_at hinv.memory (by rw [List.length_replicate]; omega) (by simp [hk])
    · exact storeBytes_load_other _ _ s (by rwa [List.length_replicate])

/-- Two requests of a transfer reloaded before each step. -/
def loadAndStep (v : Byte) : List Instr := [.dmaLoadPending v, .dmaStep]

/-- The state after a DMA_LOAD_PENDING. -/
def State.pendingLoaded (s : State) (v : Byte) : State :=
  State.answer { s with dmaPending := v } { status := .ok, data := v }

theorem execSeq_loadAndStep {s t : State} {v : Byte} (h : exec .dmaStep (s.pendingLoaded v) = .next t)
    (is : List Instr) : execSeq (loadAndStep v ++ is) s = execSeq is t :=
  (execSeq_cons_of_next (t := s.pendingLoaded v) rfl).trans (execSeq_cons_of_next h)

/-- A Write transfer reloaded before each step: the loaded bytes at consecutive addresses, then complete, with the last one
pending. -/
theorem execSeq_loaded_transfer {v : Byte} {vs : List Byte} {s : State} (hs : s.dmaState = .active)
    (hd : s.dmaDir = .write) (hlen : s.dmaLen.toNat = vs.length + 1) (hdec : s.TransferDecodes (vs.length + 1) .write) :
    ∃ r, r.status = .ok ∧ execSeq ((v :: vs).flatMap loadAndStep) s =
      .next (s.transferDone (storeBytes s.dmaStart (v :: vs) s).mem (vs.getLastD v) r) := by
  induction vs generalizing v s with
  | nil =>
    obtain ⟨g, hg⟩ := hdec.first
    have hstep := execDmaStep_write_last (s := s.pendingLoaded v) hs hd hg (dmaLen_eq_one hlen)
    exact ⟨_, rfl, execSeq_loadAndStep hstep []⟩
  | cons w vs ih =>
    rw [List.length_cons] at hlen hdec
    have hdec' : (s.pendingLoaded v).TransferDecodes (vs.length + 1 + 1) .write := hdec
    have hlen' : (s.pendingLoaded v).dmaLen.toNat = vs.length + 1 + 1 := hlen
    obtain ⟨g, hg⟩ := hdec'.first
    have hstep := execDmaStep_write_more (s := s.pendingLoaded v) hs hd hg (dmaLen_ne_one (by omega))
    obtain ⟨r, hr, hseq⟩ := ih (v := w) (s := (s.pendingLoaded v).byteMoved _ _ _) hs hd
      (toNat_dmaLen_byteMoved hlen' _ _ _) (hdec'.rest _ _ _)
    have hdone := transferDone_byteMoved (s.pendingLoaded v) v v (vs.getLastD w) (w :: vs)
      ((s.pendingLoaded v).movedResponse g v) r
    have hmem := storeBytes_mem_congr (s := s) (t := s.pendingLoaded v) rfl s.dmaStart (v :: w :: vs)
    rw [List.flatMap_cons, execSeq_loadAndStep hstep, List.getLastD_cons, ← hmem]
    exact ⟨r, hr, hseq.trans (congrArg _ hdone)⟩

/-- Settles O60: as for a transfer of one byte's value, with the loaded bytes in its place. -/
theorem writeTransferWritesTheLoadedBytes : Obligations.WriteTransferWritesTheLoadedBytes := by
  rintro (_ | ⟨v, vs⟩) s hinv hs hd hlen hdec
  · obtain ⟨hpos, -⟩ := hinv.inRange (.inr hs)
    rw [List.length_nil] at hlen
    omega
  · have hbound := s.dmaLen.isLt
    rw [List.length_cons] at hlen
    obtain ⟨r, hr, hseq⟩ := execSeq_loaded_transfer (v := v) hs hd hlen hdec
    refine ⟨_, hseq, congrArg some hr, ?_, fun k x hk => ?_, fun a ha => ?_⟩
    · rw [List.getLastD_cons]
      rfl
    · exact storeBytes_load_at hinv.memory (by rw [List.length_cons]; omega) hk
    · exact storeBytes_load_other _ _ s ha

/-- The state after an abort at `a`, with the store `m`. -/
def State.transferAborted (s : State) (m : Memory) (a : Addr) (f : AccessFault) (g : RegionId) : State :=
  (State.abortDma { s with mem := m } a f).answer { status := .dmaAborted, region := g, addr := a, cause := f.cause }

/-- A Write transfer whose bytes are writable up to byte `k`, which is not: the bytes before it, then the abort. -/
theorem execSeq_write_aborted {k : Nat} {s : State} {f : AccessFault} {g : RegionId} (hs : s.dmaState = .active)
    (hd : s.dmaDir = .write) (hlen : k < s.dmaLen.toNat) (hdec : s.TransferDecodes k .write)
    (hfail : s.decodeAddr (s.dmaStart + BitVec.ofNat 16 k) .write = .fail f g) :
    execSeq (List.replicate (k + 1) .dmaStep) s =
      .next (s.transferAborted (storeBytes s.dmaStart (List.replicate k s.dmaPending) s).mem
        (s.dmaStart + BitVec.ofNat 16 k) f g) := by
  induction k generalizing s with
  | zero =>
    rw [BitVec.add_zero] at hfail ⊢
    exact execSeq_cons_of_next (execDmaStep_of_fail hs (hd ▸ hfail))
  | succ k ih =>
    obtain ⟨h, hh⟩ := hdec.first
    obtain ⟨n, hn⟩ : ∃ n, s.dmaLen.toNat = n + 1 := ⟨s.dmaLen.toNat - 1, by omega⟩
    have hstep := execDmaStep_write_more hs hd hh (dmaLen_ne_one (by omega))
    have hrest := toNat_dmaLen_byteMoved hn (s.store s.dmaStart s.dmaPending).mem s.dmaPending
      (s.movedResponse h s.dmaPending)
    rw [addr_add_succ] at hfail ⊢
    have hseq := ih (s := s.byteMoved (s.store s.dmaStart s.dmaPending).mem s.dmaPending
      (s.movedResponse h s.dmaPending)) hs hd (by omega) (hdec.rest _ _ _) hfail
    have hmem := storeBytes_byteMoved s s.dmaPending s.dmaPending (List.replicate k s.dmaPending)
      (s.movedResponse h s.dmaPending)
    rw [← List.replicate_succ] at hmem
    rw [List.replicate_succ, execSeq_cons_of_next hstep, ← hmem]
    exact hseq

/-- Settles O48: the bytes before the protected one are consecutive stores of the pending byte, and the abort writes the
registers named. -/
theorem writeTransferAbortsAtTheFirstProtectedByte : Obligations.WriteTransferAbortsAtTheFirstProtectedByte := by
  intro k s g hinv hs hd hlen hdec hfail
  have hbound := s.dmaLen.isLt
  refine ⟨_, execSeq_write_aborted hs hd hlen hdec hfail, rfl, rfl, fun j hj => ?_, fun a ha => ?_⟩
  · exact storeBytes_load_at hinv.memory (by rw [List.length_replicate]; omega) (by simp [hj])
  · exact storeBytes_load_other _ _ s (by rwa [List.length_replicate])

/-- A Read transfer of `n + 1` mapped bytes: the last one stays pending. -/
theorem execSeq_read_transfer {n : Nat} {s : State} (hs : s.dmaState = .active) (hd : s.dmaDir = .read)
    (hlen : s.dmaLen.toNat = n + 1) (hdec : s.TransferDecodes (n + 1) .read) :
    ∃ r, r.status = .ok ∧ execSeq (List.replicate (n + 1) .dmaStep) s =
      .next (s.transferDone s.mem (s.load (s.dmaStart + BitVec.ofNat 16 n)) r) := by
  induction n generalizing s with
  | zero =>
    obtain ⟨g, hg⟩ := hdec.first
    rw [BitVec.add_zero]
    exact ⟨_, rfl, execSeq_cons_of_next (execDmaStep_read_last hs hd hg (dmaLen_eq_one hlen))⟩
  | succ n ih =>
    obtain ⟨g, hg⟩ := hdec.first
    have hstep := execDmaStep_read_more hs hd hg (dmaLen_ne_one (by omega))
    obtain ⟨r, hr, hseq⟩ := ih (s := s.byteMoved _ _ _) hs hd (toNat_dmaLen_byteMoved hlen _ _ _) (hdec.rest _ _ _)
    refine ⟨r, hr, ?_⟩
    rw [List.replicate_succ, execSeq_cons_of_next hstep, hseq, addr_add_succ]
    rfl

/-- Settles O49: each step replaces the pending byte, and none stores. -/
theorem readTransferKeepsItsLastByte : Obligations.ReadTransferKeepsItsLastByte := by
  rintro (_ | n) s hinv hs hd hlen hdec
  · obtain ⟨hpos, -⟩ := hinv.inRange (.inr hs)
    omega
  · obtain ⟨r, hr, hseq⟩ := execSeq_read_transfer hs hd hlen hdec
    exact ⟨_, hseq, congrArg some hr, rfl⟩

/-! ### The return to Idle (R182) -/

/-- At most `n` requests of the arbiter and the engine lead to Idle. -/
def State.ReturnsToIdle (n : Nat) (s : State) : Prop :=
  ∃ (is : List Instr) (t : State), is.length ≤ n ∧ (∀ i ∈ is, i = .dmaGrant ∨ i = .dmaStep ∨ i = .dmaAck) ∧
    execSeq is s = .next t ∧ t.dmaState = .idle

section Return
variable {s t : State} {i : Instr} {n m : Nat}

theorem State.ReturnsToIdle.of_idle (h : s.dmaState = .idle) : s.ReturnsToIdle n :=
  ⟨[], s, n.zero_le, by simp, rfl, h⟩

theorem State.ReturnsToIdle.cons (hi : i = .dmaGrant ∨ i = .dmaStep ∨ i = .dmaAck) (hx : exec i s = .next t)
    (h : t.ReturnsToIdle n) : s.ReturnsToIdle (n + 1) := by
  obtain ⟨is, u, hlen, his, hseq, hu⟩ := h
  exact ⟨i :: is, u, Nat.succ_le_succ hlen, List.forall_mem_cons.mpr ⟨hi, his⟩,
    (execSeq_cons_of_next hx).trans hseq, hu⟩

theorem State.ReturnsToIdle.mono (h : s.ReturnsToIdle n) (hle : n ≤ m) : s.ReturnsToIdle m := by
  obtain ⟨is, u, hlen, h⟩ := h
  exact ⟨is, u, hlen.trans hle, h⟩

theorem State.returnsToIdle_of_complete (h : s.dmaState = .complete) : s.ReturnsToIdle 1 :=
  .cons (.inr (.inr rfl)) (execDmaAck_of_complete h) (.of_idle (n := 0) rfl)

/-- A DMA_STEP of an active transfer aborts it, completes it, or leaves one byte fewer to move. -/
theorem execDmaStep_progress (hs : s.dmaState = .active) :
    ∃ t, exec .dmaStep s = .next t ∧
      (t.dmaState = .idle ∨ (s.dmaLen = 1#16 ∧ t.dmaState = .complete) ∨
        (s.dmaLen ≠ 1#16 ∧ t.dmaState = .active ∧ t.dmaLen = s.dmaLen - 1#16)) := by
  cases hdec : s.decodeAddr s.dmaStart s.dmaDir with
  | fail f g => exact ⟨_, execDmaStep_of_fail hs hdec, .inl rfl⟩
  | ok o g =>
    rw [State.decodeAddr_offset hdec] at hdec
    by_cases hlen : s.dmaLen = 1#16 <;> cases hd : s.dmaDir <;> rw [hd] at hdec
    · exact ⟨_, execDmaStep_read_last hs hd hdec hlen, .inr (.inl ⟨hlen, rfl⟩)⟩
    · exact ⟨_, execDmaStep_write_last hs hd hdec hlen, .inr (.inl ⟨hlen, rfl⟩)⟩
    · exact ⟨_, execDmaStep_read_more hs hd hdec hlen, .inr (.inr ⟨hlen, hs, rfl⟩)⟩
    · exact ⟨_, execDmaStep_write_more hs hd hdec hlen, .inr (.inr ⟨hlen, hs, rfl⟩)⟩

/-- An active transfer takes one step for each byte at most, and the acknowledgement. -/
theorem State.returnsToIdle_of_active (hs : s.dmaState = .active) (hlen : s.dmaLen.toNat = n + 1) :
    s.ReturnsToIdle (n + 2) := by
  induction n generalizing s with
  | zero =>
    obtain ⟨t, ht, hidle | ⟨-, hdone⟩ | ⟨hne, -⟩⟩ := execDmaStep_progress hs
    · exact .cons (.inr (.inl rfl)) ht (.of_idle hidle)
    · exact .cons (.inr (.inl rfl)) ht (State.returnsToIdle_of_complete hdone)
    · exact absurd (dmaLen_eq_one hlen) hne
  | succ n ih =>
    obtain ⟨t, ht, hidle | ⟨hone, -⟩ | ⟨-, hact, hleft⟩⟩ := execDmaStep_progress hs
    · exact .cons (.inr (.inl rfl)) ht (.of_idle hidle)
    · exact absurd hone (dmaLen_ne_one (by omega))
    · have hlt := s.dmaLen.isLt
      exact .cons (.inr (.inl rfl)) ht (ih hact (by rw [hleft]; bv_omega))

end Return

/-- Settles O46: a requested transfer is granted first; an active one is stepped to its end; a complete one is
acknowledged. -/
theorem arbiterCanAlwaysReturnToIdle : Obligations.ArbiterCanAlwaysReturnToIdle := by
  intro s hinv
  change s.ReturnsToIdle (s.dmaLen.toNat + 2)
  cases hs : s.dmaState with
  | idle => exact .of_idle hs
  | complete => exact (State.returnsToIdle_of_complete hs).mono (by omega)
  | requested =>
    obtain ⟨hpos, -⟩ := hinv.inRange (.inl hs)
    obtain ⟨n, hn⟩ := Nat.exists_eq_add_of_le' hpos
    rw [hn]
    exact .cons (.inl rfl) (execDmaGrant_of_requested hs) (State.returnsToIdle_of_active rfl hn)
  | active =>
    obtain ⟨hpos, -⟩ := hinv.inRange (.inr hs)
    obtain ⟨n, hn⟩ := Nat.exists_eq_add_of_le' hpos
    exact (State.returnsToIdle_of_active hs hn).mono (by omega)

end Sys2Proof.Machine
end
